-- ==== Sys2Proof/Word.lean ====
section
/-!
DEFINITION. The scalar types of the machine: the 32-bit word (R6, R12), the 8-bit console byte (R6),
and the index of one of the eight general registers (R21).
-/

namespace Sys2Proof

/-- "Word: an unsigned 32-bit value, the machine's sole scalar data type" (R12). -/
abbrev Word := BitVec 32

/-- The console datum, and one byte of an image delivered as a byte stream (R6, R203). -/
abbrev Byte := BitVec 8

/-- A register index, 0 to 7 (R21). R80: a 3-bit field holds nothing else, so the bound is structural. -/
abbrev Reg := Fin 8

end Sys2Proof
end

