-- ==== Sys2Proof/Syntax.lean ====
section
/-!
DEFINITION. The 14 instructions as syntax (R2, R82), the operation names an opcode map assigns numbers to
(R76), the five encoding formats (R71), and the name under which the decoder rejects a word (R79).
-/

namespace Sys2Proof

/-- The 14 operations an opcode number selects (R2). -/
inductive Op where
  | cmov | sload | sstore | add | mul | div | nand | halt | map | unmap | out | inp | loadp | loadv
deriving DecidableEq, Repr

/-- Every operation once, in the order of the opcode table of R76. -/
def Op.all : List Op :=
  [.cmov, .sload, .sstore, .add, .mul, .div, .nand, .halt, .map, .unmap, .out, .inp, .loadp, .loadv]

/-- The five formats, the source's operand classes (R71). -/
inductive Format where
  /-- Three register fields A, B, C (R72). -/
  | abc
  /-- Two register fields B, C (R73). -/
  | bc
  /-- One register field C (R74). -/
  | c
  /-- No operand field (R75). -/
  | none
  /-- A register field at bits 27:25 and a 25-bit literal (R75). -/
  | lit
deriving DecidableEq, Repr

/-- The format of each operation: the format column of R76, which the source settles for every row. -/
def Op.format : Op → Format
  | .cmov => .abc
  | .sload => .abc
  | .sstore => .abc
  | .add => .abc
  | .mul => .abc
  | .div => .abc
  | .nand => .abc
  | .halt => .none
  | .map => .bc
  | .unmap => .c
  | .out => .c
  | .inp => .c
  | .loadp => .bc
  | .loadv => .lit

/-- An instruction: one constructor per row of the opcode table, the operands in field order A, B, C (R82).
The roles of the letters are those of R101 to R106, R121 to R125, R143 and R144 (log entry 2). -/
inductive Instr where
  /-- `CMOV rA, rB, rC` (R101). -/
  | cmov (a b c : Reg)
  /-- `SLOAD rA, rB, rC` (R121). -/
  | sload (a b c : Reg)
  /-- `SSTORE rA, rB, rC` (R122). -/
  | sstore (a b c : Reg)
  /-- `ADD rA, rB, rC` (R102). -/
  | add (a b c : Reg)
  /-- `MUL rA, rB, rC` (R103). -/
  | mul (a b c : Reg)
  /-- `DIV rA, rB, rC` (R105). -/
  | div (a b c : Reg)
  /-- `NAND rA, rB, rC` (R104). -/
  | nand (a b c : Reg)
  /-- `HALT` (R155). -/
  | halt
  /-- `MAP rB, rC` (R123). -/
  | map (b c : Reg)
  /-- `UNMAP rC` (R124). -/
  | unmap (c : Reg)
  /-- `OUT rC` (R143). -/
  | out (c : Reg)
  /-- `IN rC` (R144). -/
  | inp (c : Reg)
  /-- `LOADP rB, rC` (R125). -/
  | loadp (b c : Reg)
  /-- `LOADV rA, imm` (R106). As written by an assembler the literal is any word; `Instr.wf` says which
  literals an instruction can encode (R77; conflict C1). -/
  | loadv (a : Reg) (imm : Word)
deriving DecidableEq, Repr

/-- The operation of an instruction. -/
def Instr.op : Instr → Op
  | .cmov _ _ _ => .cmov
  | .sload _ _ _ => .sload
  | .sstore _ _ _ => .sstore
  | .add _ _ _ => .add
  | .mul _ _ _ => .mul
  | .div _ _ _ => .div
  | .nand _ _ _ => .nand
  | .halt => .halt
  | .map _ _ => .map
  | .unmap _ => .unmap
  | .out _ => .out
  | .inp _ => .inp
  | .loadp _ _ => .loadp
  | .loadv _ _ => .loadv

/-- Why the decoder rejects a word. -/
inductive DecodeReject where
  /-- The opcode of the word names no instruction (R79); safe: the step takes the fault `InvalidOpcode`. -/
  | invalidOpcode (w : Word)
deriving DecidableEq, Repr

end Sys2Proof
end

