-- ==== Sys2Proof/Config.lean ====
section
/-!
DEFINITION. What an implementation fixes: the default opcode map (R7, R76), the largest segment (R6), and the
free values of the model (what the spec leaves open and no proof may know).
-/

namespace Sys2Proof

/-- An opcode map: the operation at list position n has opcode number n (R7, decision D1). -/
abbrev OpMap := List Op

/-- The default of the parameter `OPMAP`, the table of R76. PRESUMED: the source settles opcode 7 only (log entry 1).
A machine runs under the map its state carries, and `boot` takes any. -/
def Config.opmap : OpMap :=
  [.cmov, .sload, .sstore, .add, .mul, .div, .nand, .halt, .map, .unmap, .out, .inp, .loadp, .loadv]

/-- The most words a segment can have, the image included (R6, R202). -/
def Config.maxSegmentWords : Nat := 4294967295

/-- The number of handles, one for each 32-bit word (R6). -/
def Config.handleCount : Nat := 4294967296

/-- FREE VALUE: the handle that an allocation policy other than the reference one draws at its n-th draw
(R48: nothing but "non-zero and unmapped" is guaranteed). It has no body, so nothing can be proved of it
(log entry 3). -/
opaque Config.freeHandle : Nat → Word

end Sys2Proof
end

