-- ==== Sys2Proof/WellFormed.lean ====
section
/-!
DEFINITION. The checks on syntax and on parameters: which instructions an encoding exists for (R77, R84), which
tables are opcode maps (decision D1), which images reset accepts (R202).
-/

namespace Sys2Proof

/-- An instruction that has an encoding. Only a literal can be out of range: R84 asks `0 <= imm < 2^25`,
and R80 makes every register index a legal one. -/
def Instr.wf : Instr → Bool
  | .cmov _ _ _ => true
  | .sload _ _ _ => true
  | .sstore _ _ _ => true
  | .add _ _ _ => true
  | .mul _ _ _ => true
  | .div _ _ _ => true
  | .nand _ _ _ => true
  | .halt => true
  | .map _ _ => true
  | .unmap _ => true
  | .out _ => true
  | .inp _ => true
  | .loadp _ _ => true
  | .loadv _ imm => decide (imm.toNat < 33554432)

/-- The table numbers 14 opcodes, 0 to 13 (R2). -/
def OpMap.hasFourteenRows (m : OpMap) : Bool := m.length == 14

/-- Every operation has an opcode; with 14 rows this makes the table a bijection (decision D1). -/
def OpMap.namesEveryOp (m : OpMap) : Bool := Op.all.all fun o => m.contains o

/-- "opcode 7 is the explicit halt instruction" (R76), the one number the source fixes. -/
def OpMap.haltIsSeven (m : OpMap) : Bool := m[7]? == some .halt

/-- An admissible `OPMAP` (R7, decision D1): a bijection from 0 to 13 onto the 14 operations, with 7 for HALT. -/
def OpMap.wf (m : OpMap) : Bool := OpMap.hasFourteenRows m && OpMap.namesEveryOp m && OpMap.haltIsSeven m

/-- An image whose length reset accepts: 0 to 2^32 - 1 words (R202). -/
def imageWf (image : List Word) : Bool := decide (image.length ≤ Config.maxSegmentWords)

end Sys2Proof
end

