-- ==== Sys2Proof/Decode.lean ====
section
/-!
DEFINITION. The decoder, a pure function of the word (R70 to R81), the encoder, its inverse on canonical words
(R84), and the byte stream an image is delivered as (R42, R203).
-/

namespace Sys2Proof

/-! ## Fields of a word -/

/-- `w[hi:lo]`, the unsigned integer made of bits hi down to lo (R8). -/
def bits (w : Word) (hi lo : Nat) : Nat := w.toNat / 2 ^ lo % 2 ^ (hi - lo + 1)

/-- The opcode, `w[31:28]` (R71). -/
def opcodeField (w : Word) : Nat := bits w 31 28

/-- The register field A of format `ABC`, `w[8:6]` (R72). -/
def fieldA (w : Word) : Reg := Fin.ofNat 8 (bits w 8 6)

/-- The register field B of formats `ABC` and `BC`, `w[5:3]` (R72, R73). -/
def fieldB (w : Word) : Reg := Fin.ofNat 8 (bits w 5 3)

/-- The register field C of formats `ABC`, `BC` and `C`, `w[2:0]` (R72 to R74). -/
def fieldC (w : Word) : Reg := Fin.ofNat 8 (bits w 2 0)

/-- The register field A of format `LIT`, `w[27:25]` (R75). -/
def fieldLitA (w : Word) : Reg := Fin.ofNat 8 (bits w 27 25)

/-- The literal of format `LIT`, `w[24:0]`, as a word (R75, R77). -/
def fieldImm (w : Word) : Word := BitVec.ofNat 32 (bits w 24 0)

/-! ## Decoding -/

/-- The instruction of operation `o` with the fields of its format taken from `w`; the other bits are
not read (R72 to R75, R78). -/
def instrOf (o : Op) (w : Word) : Instr :=
  match o with
  | .cmov => .cmov (fieldA w) (fieldB w) (fieldC w)
  | .sload => .sload (fieldA w) (fieldB w) (fieldC w)
  | .sstore => .sstore (fieldA w) (fieldB w) (fieldC w)
  | .add => .add (fieldA w) (fieldB w) (fieldC w)
  | .mul => .mul (fieldA w) (fieldB w) (fieldC w)
  | .div => .div (fieldA w) (fieldB w) (fieldC w)
  | .nand => .nand (fieldA w) (fieldB w) (fieldC w)
  | .halt => .halt
  | .map => .map (fieldB w) (fieldC w)
  | .unmap => .unmap (fieldC w)
  | .out => .out (fieldC w)
  | .inp => .inp (fieldC w)
  | .loadp => .loadp (fieldB w) (fieldC w)
  | .loadv => .loadv (fieldLitA w) (fieldImm w)

/-- Decoding under an opcode map: the opcode alone selects the instruction and its format (R71), and an
opcode with no row, 14 and 15 in an admissible map, is rejected by name (R79). -/
def decodeWith (m : OpMap) (w : Word) : Except DecodeReject Instr :=
  match m[opcodeField w]? with
  | some o => .ok (instrOf o w)
  | none => .error (.invalidOpcode w)

/-- The decoder under the default map of R76 (R7). -/
def decode (w : Word) : Except DecodeReject Instr := decodeWith Config.opmap w

/-- The instruction the decoder reads from a table row's word, which the table numbers by the default map; `none`
where it rejects. Every instruction is
one 32-bit word (R70) and memory holds whole words (R42), so the row's number is the word itself. -/
def decodeTableWord (nbits w : Nat) : Option Instr :=
  match decode (BitVec.ofNat 32 (w % 2 ^ nbits)) with
  | .ok i => some i
  | .error _ => none

/-! ## Encoding -/

/-- The opcode number of an operation under a map. -/
def opcodeOf (m : OpMap) (o : Op) : Nat := m.idxOf o

/-- `enc_ABC` of R84. -/
def encABC (op : Nat) (a b c : Reg) : Word :=
  BitVec.ofNat 32 (op * 2 ^ 28 + a.val * 2 ^ 6 + b.val * 2 ^ 3 + c.val)

/-- `enc_BC` of R84. -/
def encBC (op : Nat) (b c : Reg) : Word := BitVec.ofNat 32 (op * 2 ^ 28 + b.val * 2 ^ 3 + c.val)

/-- `enc_C` of R84. -/
def encC (op : Nat) (c : Reg) : Word := BitVec.ofNat 32 (op * 2 ^ 28 + c.val)

/-- `enc_NONE` of R84. -/
def encNone (op : Nat) : Word := BitVec.ofNat 32 (op * 2 ^ 28)

/-- `enc_LIT` of R84, for `imm < 2^25`. -/
def encLit (op : Nat) (a : Reg) (imm : Word) : Word :=
  BitVec.ofNat 32 (op * 2 ^ 28 + a.val * 2 ^ 25 + imm.toNat)

/-- The canonical word of a well-formed instruction under an opcode map (R84). -/
def encodeWith (m : OpMap) : Instr → Word
  | .cmov a b c => encABC (opcodeOf m .cmov) a b c
  | .sload a b c => encABC (opcodeOf m .sload) a b c
  | .sstore a b c => encABC (opcodeOf m .sstore) a b c
  | .add a b c => encABC (opcodeOf m .add) a b c
  | .mul a b c => encABC (opcodeOf m .mul) a b c
  | .div a b c => encABC (opcodeOf m .div) a b c
  | .nand a b c => encABC (opcodeOf m .nand) a b c
  | .halt => encNone (opcodeOf m .halt)
  | .map b c => encBC (opcodeOf m .map) b c
  | .unmap c => encC (opcodeOf m .unmap) c
  | .out c => encC (opcodeOf m .out) c
  | .inp c => encC (opcodeOf m .inp) c
  | .loadp b c => encBC (opcodeOf m .loadp) b c
  | .loadv a imm => encLit (opcodeOf m .loadv) a imm

/-- The canonical word of a well-formed instruction under the default map of R76. -/
def encode (i : Instr) : Word := encodeWith Config.opmap i

/-- The bits a format reads: the opcode and its operand fields; the rest are ignored (R72 to R75, R78). -/
def Format.readMask : Format → Word
  | .abc => 0xF00001FF#32
  | .bc => 0xF000003F#32
  | .c => 0xF0000007#32
  | .none => 0xF0000000#32
  | .lit => 0xFFFFFFFF#32

/-! ## The image as bytes -/

/-- Four consecutive image bytes, big-endian: `b0 * 2^24 + b1 * 2^16 + b2 * 2^8 + b3` (R42). -/
def wordOfBytes (b0 b1 b2 b3 : Byte) : Word :=
  BitVec.ofNat 32 (b0.toNat * 2 ^ 24 + b1.toNat * 2 ^ 16 + b2.toNat * 2 ^ 8 + b3.toNat)

/-- The four image bytes of a word, the opcode's byte first (R42, R203). -/
def bytesOfWord (w : Word) : List Byte :=
  [BitVec.ofNat 8 (bits w 31 24), BitVec.ofNat 8 (bits w 23 16), BitVec.ofNat 8 (bits w 15 8),
   BitVec.ofNat 8 (bits w 7 0)]

/-- The words of a byte stream, one per four bytes in stream order (R203); `none` when the length is not a
multiple of 4, for trailing bytes are not dropped and the stream is not padded (R204). -/
def imageOfBytes : List Byte → Option (List Word)
  | [] => some []
  | b0 :: b1 :: b2 :: b3 :: rest =>
    match imageOfBytes rest with
    | some ws => some (wordOfBytes b0 b1 b2 b3 :: ws)
    | none => none
  | _ => none

end Sys2Proof
end

