-- ==== Sys2Proof/Machine/State.lean ====
section
/-!
DEFINITION. The state of the machine as plain data (R20), the fault causes (R170), the reasons a step has no
next state, and the state after reset (R33, R201).
-/

namespace Sys2Proof.Machine

/-- The fault causes of R170 with the values each records. All but `loadFault` are raised inside a step and
make the run state `Faulted(c)` (R176); safe: each is the spec's own. -/
inductive Cause where
  /-- Code 1: decode of a word with opcode 14 or 15 (R171). -/
  | invalidOpcode (w : Word)
  /-- Code 2: fetch with `pc >= len(0)` (R172). -/
  | fetchOutOfBounds (pc : Word)
  /-- Code 3: SLOAD, SSTORE or LOADP on an unmapped handle (R173). -/
  | invalidSegment (h : Word)
  /-- Code 4: SLOAD or SSTORE at an offset not below the length (R174). -/
  | segmentOutOfBounds (h o : Word)
  /-- Code 5: UNMAP of handle 0 or of an unmapped handle (R177). -/
  | invalidRelease (h : Word)
  /-- Code 6: DIV with a zero divisor (R175). -/
  | divisionByZero
  /-- Code 7: OUT of a value above 255 (R178). -/
  | invalidOutput (v : Word)
  /-- Code 8: a reset whose image is refused; no instruction raises it (R181). -/
  | loadFault
  /-- Code 9: MAP or LOADP beyond the capacity, or MAP with no handle left (R179). -/
  | resourceExhausted
deriving DecidableEq, Repr

/-- The run state (R28). `halted` and `faulted` are terminal. -/
inductive RunState where
  | running
  | halted
  | faulted (c : Cause)
deriving DecidableEq, Repr

/-- One token of the console input (R141). -/
inductive Token where
  | byte (b : Byte)
  | eof
deriving DecidableEq, Repr

/-- A segment: a fixed length in words and the words that are not 0, by rising offset (R30). A word that is not
listed is 0, as every word of a new segment is ("all zero-initialized"). -/
structure Segment where
  len : Nat
  words : List (Nat × Word)
deriving DecidableEq, Repr

/-- The segment table: the mapped handles, rising, each with its segment (R31). A handle that is not listed is
unmapped. -/
abbrev Memory := List (Nat × Segment)

/-- The hidden state of the handle allocator (R32 (a)), one constructor per policy `ALLOC` the model carries. -/
inductive Alloc where
  /-- The reference policy of R49: released handles, the most recent first, and the smallest handle never issued. -/
  | reference (free : List Word) (next : Nat)
  /-- Any other admissible policy of R48: each MAP takes draw number `count` of the free value
  `Config.freeHandle`, held to the contract (log entry 3). -/
  | drawn (count : Nat)
deriving DecidableEq, Repr

/-- The complete state `M = (x, pc, run, segs, alloc, in_pos, out)` of R20, and three parameters of R7 that
the model carries as data so that statements about every state hold for every value of them: `input`, the tokens of
`INPUT` the environment has supplied so far, `capacity`, `CAPACITY` with `none` for unbounded, and `opmap`, `OPMAP`. -/
structure State where
  /-- `x`, the eight general registers (R21). -/
  x : Vector Word 8
  /-- `pc`, a word offset into segment 0 (R23). -/
  pc : Word
  /-- `run`, the run state (R28). -/
  run : RunState
  /-- `segs`, the segment table with its segments (R30, R31). -/
  segs : Memory
  /-- `alloc`, the allocator's hidden state (R32 (a)). -/
  alloc : Alloc
  /-- `in_pos`, how many input tokens have been consumed (R32 (b)). -/
  inPos : Nat
  /-- `out`, the bytes emitted so far, the first one first (R32 (b), R142). -/
  out : List Byte
  /-- The parameter `INPUT` as far as it has been supplied (R7, R141); no step changes it. -/
  input : List Token
  /-- The parameter `CAPACITY` in words, `none` for unbounded (R7); no step changes it. -/
  capacity : Option Nat
  /-- The parameter `OPMAP`: the map this machine decodes under (R7, R76); no step changes it. -/
  opmap : OpMap
deriving DecidableEq, Repr

/-- Why there is no next state. -/
inductive Fault where
  /-- Raised by `step` on a state whose run state is `Halted`: "no step is defined" from it (R28); safe. -/
  | halted
  /-- Raised by `step` on a state whose run state is `Faulted(c)`: terminal likewise (R28, R183); and by `boot`,
  with the cause `LoadFault`, for an image that reset refuses before any step (R181, R204); safe. -/
  | faulted (c : Cause)
deriving DecidableEq, Repr

/-- Why an instruction has no meaning in the model. -/
inductive Refusal where
  /-- Raised by an arm of `exec` for an instruction without a meaning; no arm does so, every instruction
  has one; safe. -/
  | notModelled (mnemonic : String)
deriving DecidableEq, Repr

/-- The machine right after reset (R33, R201) with the empty image, which reset accepts (R202: n = 0), no input
supplied yet, unbounded capacity and the default opcode map (R7, R76), and the reference allocation policy in its
initial state (R49). A program and other parameters come in through `boot` (log entry 9). -/
def State.reset : State where
  x := Vector.replicate 8 0#32
  pc := 0#32
  run := .running
  segs := [(0, { len := 0, words := [] })]
  alloc := .reference [] 1
  inPos := 0
  out := []
  input := []
  capacity := none
  opmap := Config.opmap

end Sys2Proof.Machine
end

