-- ==== Sys2Proof/Machine/Ops.lean ====
section
/-!
DEFINITION. The named operations over registers, memory, allocator and run state that every meaning is written
with: the primitives of R9, MemRead (R44), MemWrite (R45), Alloc (R47), Free (R50), the copy of LOADP (R125),
raising a fault (R10, R176), and fetching a word (R151).
-/

namespace Sys2Proof.Machine

/-! ## Tables with rising keys -/

/-- The entry under a key. -/
def assocGet {α : Type} (k : Nat) : List (Nat × α) → Option α
  | [] => none
  | (j, v) :: l => if j = k then some v else assocGet k l

/-- The table with `v` under `k`, in rising order of keys. -/
def assocSet {α : Type} (k : Nat) (v : α) : List (Nat × α) → List (Nat × α)
  | [] => [(k, v)]
  | (j, u) :: l =>
    if k < j then (k, v) :: (j, u) :: l
    else if k = j then (k, v) :: l
    else (j, u) :: assocSet k v l

/-- The table without an entry under `k`. -/
def assocErase {α : Type} (k : Nat) (l : List (Nat × α)) : List (Nat × α) := l.filter fun p => p.1 ≠ k

/-- The keys of a table rise strictly. -/
def keysRise {α : Type} (l : List (Nat × α)) : Bool := decide ((l.map Prod.fst).Pairwise (· < ·))

/-! ## Segments -/

/-- The word at an offset: the listed one, or 0 (R30: zero-initialised). -/
def Segment.read (g : Segment) (o : Nat) : Word := (assocGet o g.words).getD 0#32

/-- The segment with the word at one offset replaced, its length unchanged (R45). Writing 0 unlists the word. -/
def Segment.write (g : Segment) (o : Nat) (v : Word) : Segment :=
  { len := g.len, words := if v = 0#32 then assocErase o g.words else assocSet o v g.words }

/-- A new segment of n words, every one 0 (R47). -/
def Segment.zeros (n : Nat) : Segment := { len := n, words := [] }

/-- The words of a list that are not 0, each under its offset, counting from `k`. -/
def listedWords (k : Nat) : List Word → List (Nat × Word)
  | [] => []
  | w :: ws => if w = 0#32 then listedWords (k + 1) ws else (k, w) :: listedWords (k + 1) ws

/-- The segment holding an image: word i of the list at offset i (R202). -/
def Segment.ofWords (ws : List Word) : Segment := { len := ws.length, words := listedWords 0 ws }

/-- The canonical form of a segment: rising offsets below the length, no listed 0, and a length that a
32-bit word can hold (R6, R30). -/
def Segment.wf (g : Segment) : Bool :=
  keysRise g.words && g.words.all (fun p => decide (p.1 < g.len) && decide (p.2 ≠ 0#32)) &&
    decide (g.len ≤ Config.maxSegmentWords)

/-! ## The segment table -/

/-- The segment a handle identifies, if it is mapped (R31). -/
def Memory.seg? (m : Memory) (h : Word) : Option Segment := assocGet h.toNat m

/-- `mapped(h)` (R9). -/
def Memory.mapped (m : Memory) (h : Word) : Bool := (Memory.seg? m h).isSome

/-- `used(segs)`: the sum of the lengths of all mapped segments, segment 0 included (R47). -/
def Memory.used (m : Memory) : Nat := (m.map fun p => p.2.len).sum

/-- The canonical form of the segment table: rising 32-bit handles, every segment in canonical form. -/
def Memory.wf (m : Memory) : Bool :=
  keysRise m && m.all fun p => decide (p.1 < Config.handleCount) && p.2.wf

/-- `MemRead((h, o), 1)`: the handle is checked before the offset (R44, decision D12). -/
def Memory.read (m : Memory) (h o : Word) : Except Cause Word :=
  match Memory.seg? m h with
  | none => .error (.invalidSegment h)
  | some g => if g.len ≤ o.toNat then .error (.segmentOutOfBounds h o) else .ok (g.read o.toNat)

/-- `MemWrite((h, o), 1, v)`: the checks of the read, then one word of one segment changes (R45). -/
def Memory.write (m : Memory) (h o v : Word) : Except Cause Memory :=
  match Memory.seg? m h with
  | none => .error (.invalidSegment h)
  | some g =>
    if g.len ≤ o.toNat then .error (.segmentOutOfBounds h o)
    else .ok (assocSet h.toNat (g.write o.toNat v) m)

/-- The smallest number not below `k` that is no key of a table whose keys rise from `k` on. -/
def firstGap {α : Type} (k : Nat) : List (Nat × α) → Nat
  | [] => k
  | (j, _) :: l => if j = k then firstGap (k + 1) l else k

/-- The smallest non-zero number that is no mapped handle. -/
def Memory.lowestUnmapped (m : Memory) : Nat := firstGap 1 (assocErase 0 m)

/-- Some 32-bit handle other than 0 is unmapped: the second check of `Alloc` (R47). -/
def Memory.handleLeft (m : Memory) : Bool := decide (Memory.lowestUnmapped m < Config.handleCount)

/-! ## The allocation policy -/

/-- `ALLOC.pick`: the handle a policy returns and its next state. The reference policy is R49's; the other one
takes its draw when the contract of R48 allows it, else the lowest handle that the contract allows (log entry 4). -/
def Alloc.pick (al : Alloc) (m : Memory) : Word × Alloc :=
  match al with
  | .reference (h :: free) next => (h, .reference free next)
  | .reference [] next => (BitVec.ofNat 32 next, .reference [] (next + 1))
  | .drawn n =>
    (if Config.freeHandle n ≠ 0#32 ∧ Memory.mapped m (Config.freeHandle n) = false then Config.freeHandle n
     else BitVec.ofNat 32 (Memory.lowestUnmapped m), .drawn (n + 1))

/-- `ALLOC.release`: the reference policy puts the handle in front (R49). -/
def Alloc.release (al : Alloc) (h : Word) : Alloc :=
  match al with
  | .reference free next => .reference (h :: free) next
  | .drawn n => .drawn n

/-- The parameter `ALLOC`: which policy the machine runs (R7). -/
def Alloc.isReference : Alloc → Bool
  | .reference _ _ => true
  | .drawn _ => false

/-! ## Registers, pc and the other fields -/

/-- `x[i]` (R9). -/
def State.reg (s : State) (i : Reg) : Word := s.x[i]

/-- `x[i] <- v` (R9). -/
def State.setReg (s : State) (i : Reg) (v : Word) : State := { s with x := s.x.set i v }

/-- `pc <- t` (R9). -/
def State.setPc (s : State) (t : Word) : State := { s with pc := t }

/-- The advance phase: `pc <- (pc + 1) mod 2^32` (R154). -/
def State.advance (s : State) : State := { s with pc := s.pc + 1#32 }

/-- `run <- r`. -/
def State.setRun (s : State) (r : RunState) : State := { s with run := r }

/-- `segs <- m`. -/
def State.setSegs (s : State) (m : Memory) : State := { s with segs := m }

/-- `alloc <- a`. -/
def State.setAlloc (s : State) (a : Alloc) : State := { s with alloc := a }

/-- One more input token is consumed: `in_pos <- in_pos + 1` (R141). -/
def State.consumeToken (s : State) : State := { s with inPos := s.inPos + 1 }

/-- One more byte is emitted, after all earlier ones (R142). -/
def State.emit (s : State) (b : Byte) : State := { s with out := s.out ++ [b] }

/-- The environment supplies the next token of `INPUT`; nothing else changes (R141). -/
def State.supplyToken (s : State) (t : Token) : State := { s with input := s.input ++ [t] }

/-! ## Faults -/

/-- The code of a cause, the first column of R170. -/
def Cause.code : Cause → Nat
  | .invalidOpcode _ => 1
  | .fetchOutOfBounds _ => 2
  | .invalidSegment _ => 3
  | .segmentOutOfBounds _ _ => 4
  | .invalidRelease _ => 5
  | .divisionByZero => 6
  | .invalidOutput _ => 7
  | .loadFault => 8
  | .resourceExhausted => 9

/-- Taking a fault: "A fault does one thing: it stops the machine" (R176). The run state records the cause, and
nothing else changes: no register saves the pc, no mode changes, control goes nowhere. There is no return from
it (R183), so no operation undoes it. -/
def raise (c : Cause) (s : State) : Host.Outcome State Fault Refusal := .next (s.setRun (.faulted c))

/-- An execute phase whose checks come first: if they raise, the fault is taken in the state before the step,
else the effect `k` takes place (R10). -/
def orRaise {α : Type} (r : Except Cause α) (s : State) (k : α → State) : Host.Outcome State Fault Refusal :=
  match r with
  | .error c => raise c s
  | .ok v => .next (k v)

/-! ## Allocation, release, program replacement -/

/-- A total of `n` words is within `CAPACITY` (R47). -/
def State.fits (s : State) (n : Nat) : Bool :=
  match s.capacity with
  | none => true
  | some cap => decide (n ≤ cap)

/-- `Alloc(n)`: the capacity check, the handle check, then a zero-filled segment under the handle the policy
picks (R47). -/
def State.allocSegment (s : State) (n : Word) : Except Cause (Word × State) :=
  if s.fits (Memory.used s.segs + n.toNat) = false then .error .resourceExhausted
  else if Memory.handleLeft s.segs = false then .error .resourceExhausted
  else
    .ok ((s.alloc.pick s.segs).1,
      (s.setSegs (assocSet (s.alloc.pick s.segs).1.toNat (Segment.zeros n.toNat) s.segs)).setAlloc
        (s.alloc.pick s.segs).2)

/-- `Free(h)`: the segment ceases to exist and the policy is told (R50). -/
def State.freeSegment (s : State) (h : Word) : Except Cause State :=
  if h = 0#32 ∨ Memory.mapped s.segs h = false then .error (.invalidRelease h)
  else .ok ((s.setSegs (assocErase h.toNat s.segs)).setAlloc (s.alloc.release h))

/-- The length in words of segment 0 (0 if it were unmapped, which R31 rules out). -/
def Memory.len0 (m : Memory) : Nat :=
  match Memory.seg? m 0#32 with
  | none => 0
  | some g => g.len

/-- The copy of LOADP: segment 0 becomes a copy of the segment at `h`; for `h = 0` nothing is copied (R125). -/
def State.replaceProgram (s : State) (h : Word) : Except Cause State :=
  match Memory.seg? s.segs h with
  | none => .error (.invalidSegment h)
  | some g =>
    if h = 0#32 then .ok s
    else if s.fits (Memory.used s.segs - Memory.len0 s.segs + g.len) = false then .error .resourceExhausted
    else .ok (s.setSegs (assocSet 0 g s.segs))

/-! ## Fetch -/

/-- The fetch: the word of segment 0 at `pc`, under the fetch's own check and fault (R151). -/
def State.fetch (s : State) : Except Cause Word :=
  match Memory.seg? s.segs 0#32 with
  | none => .error (.fetchOutOfBounds s.pc)
  | some g => if g.len ≤ s.pc.toNat then .error (.fetchOutOfBounds s.pc) else .ok (g.read s.pc.toNat)

/-- Fetch, then decode under the machine's own `OPMAP`: the instruction at `pc`, or the first fault of the step
(R150, R152, R182). -/
def State.fetchDecode (s : State) : Except Cause Instr :=
  match s.fetch with
  | .error c => .error c
  | .ok w =>
    match decodeWith s.opmap w with
    | .error (.invalidOpcode v) => .error (.invalidOpcode v)
    | .ok i => .ok i

/-- Segment 0 with one word placed at an offset: its other words stay, and it is lengthened with words of 0
only as far as the offset needs. -/
def Memory.placeWord (m : Memory) (o : Nat) (w : Word) : Memory :=
  let g := (Memory.seg? m 0#32).getD (Segment.zeros 0)
  assocSet 0 (Segment.write { g with len := max g.len (o + 1) } o w) m

/-! ## Reset -/

/-- The policies `ALLOC` a machine can be reset with, each in its initial state (R33). -/
def Alloc.initial (reference : Bool) : Alloc := if reference then .reference [] 1 else .drawn 0

/-- The state after a successful reset with an image (R33, R201, R202), for given parameters. -/
def State.resetWith (image : List Word) (opmap : OpMap) (input : List Token) (capacity : Option Nat) (al : Alloc) :
    State :=
  { State.reset with segs := [(0, Segment.ofWords image)], opmap, input, capacity, alloc := al }

/-- Reset with an image given as words: refused when it is longer than a segment or than the capacity (R202). The
other arguments are the parameters of R7; an `OPMAP` is one that meets `OpMap.wf`. -/
def bootWords (image : List Word) (opmap : OpMap) (input : List Token) (capacity : Option Nat) (reference : Bool) :
    Host.Outcome State Fault Refusal :=
  let s := State.resetWith image opmap input capacity (Alloc.initial reference)
  if imageWf image = false ∨ s.fits image.length = false then .fault (.faulted .loadFault) else .next s

/-- Reset with an image given as a byte stream, `none` when it cannot be obtained: refused in that case, and when
the length is not a multiple of 4 (R203, R204). -/
def boot (file : Option (List Byte)) (opmap : OpMap) (input : List Token) (capacity : Option Nat) (reference : Bool) :
    Host.Outcome State Fault Refusal :=
  match file with
  | none => .fault (.faulted .loadFault)
  | some bytes =>
    match imageOfBytes bytes with
    | none => .fault (.faulted .loadFault)
    | some image => bootWords image opmap input capacity reference

end Sys2Proof.Machine
end

