-- ==== Sys2Proof/Machine/Flags.lean ====
section
/-!
DEFINITION. The machine has no status flags, condition codes or predicate registers (R26), so there is no flag to
compute. What a condition is tested on is a general register's whole value.
-/

namespace Sys2Proof.Machine

/-- The only condition of the machine: a word that is not 0, all 32 bits counting (R26, R101). -/
def holds (c : Word) : Bool := decide (c ≠ 0#32)

end Sys2Proof.Machine
end

