-- ==== Sys2Proof/Machine/Operands.lean ====
section
/-!
DEFINITION. The operand forms: the register pair that is a segment address (R120 (b)), the literal (R77), and the
registers an instruction reads and writes (R22).
-/

namespace Sys2Proof.Machine

/-- The effective address of SLOAD: handle x[B], offset x[C] (R120 (b), R121). -/
def State.addressBC (s : State) (b c : Reg) : Word × Word := (s.reg b, s.reg c)

/-- The effective address of SSTORE: handle x[A], offset x[B] (R120 (b), R122). -/
def State.addressAB (s : State) (a b : Reg) : Word × Word := (s.reg a, s.reg b)

/-- The value of the literal operand: 25 bits, zero-extended, bits 31:25 being 0 (R77, R106). -/
def literal (imm : Word) : Word := BitVec.ofNat 32 (bits imm 24 0)

/-- The register an instruction may write (R22). -/
def destination : Instr → Option Reg
  | .cmov a _ _ => some a
  | .sload a _ _ => some a
  | .sstore _ _ _ => none
  | .add a _ _ => some a
  | .mul a _ _ => some a
  | .div a _ _ => some a
  | .nand a _ _ => some a
  | .halt => none
  | .map b _ => some b
  | .unmap _ => none
  | .out _ => none
  | .inp c => some c
  | .loadp _ _ => none
  | .loadv a _ => some a

/-- The registers an instruction reads (R22). -/
def sources : Instr → List Reg
  | .cmov _ b c => [b, c]
  | .sload _ b c => [b, c]
  | .sstore a b c => [a, b, c]
  | .add _ b c => [b, c]
  | .mul _ b c => [b, c]
  | .div _ b c => [b, c]
  | .nand _ b c => [b, c]
  | .halt => []
  | .map _ c => [c]
  | .unmap c => [c]
  | .out c => [c]
  | .inp _ => []
  | .loadp b c => [b, c]
  | .loadv _ _ => []

end Sys2Proof.Machine
end

