-- ==== Sys2Proof/Machine/Alu.lean ====
section
/-!
DEFINITION. The ALU instructions CMOV, ADD, MUL, NAND, DIV and LOADV (R100 to R107): execute phase and advance.
Each reads its sources in the state before the step and then writes its destination (R100 (b)).
-/

namespace Sys2Proof.Machine

/-- The end of every ALU instruction: `x[A] <- v`, then the advance (R100 (a), R154). -/
def aluResult (a : Reg) (v : Word) (s : State) : State := (s.setReg a v).advance

/-- CMOV: `if x[C] != 0 then x[A] <- x[B]`, else no register changes (R101). -/
def execCmov (a b c : Reg) (s : State) : Host.Outcome State Fault Refusal :=
  .next (if holds (s.reg c) then aluResult a (s.reg b) s else s.advance)

/-- ADD: `x[A] <- (x[B] + x[C]) mod 2^32` (R102). -/
def execAdd (a b c : Reg) (s : State) : Host.Outcome State Fault Refusal :=
  .next (aluResult a (s.reg b + s.reg c) s)

/-- MUL: `x[A] <- (x[B] * x[C]) mod 2^32` (R103). -/
def execMul (a b c : Reg) (s : State) : Host.Outcome State Fault Refusal :=
  .next (aluResult a (s.reg b * s.reg c) s)

/-- NAND: `x[A] <- ~(x[B] & x[C])` (R104). -/
def execNand (a b c : Reg) (s : State) : Host.Outcome State Fault Refusal :=
  .next (aluResult a (~~~(s.reg b &&& s.reg c)) s)

/-- The unsigned quotient, rounded down; a zero divisor raises `DivisionByZero` whatever the dividend (R105). -/
def quotient (n d : Word) : Except Cause Word :=
  if d = 0#32 then .error .divisionByZero else .ok (BitVec.ofNat 32 (n.toNat / d.toNat))

/-- DIV: `x[A] <- floor(x[B] / x[C])` (R105). -/
def execDiv (a b c : Reg) (s : State) : Host.Outcome State Fault Refusal :=
  orRaise (quotient (s.reg b) (s.reg c)) s fun v => aluResult a v s

/-- LOADV: `x[A] <- zext_32(imm25)` (R106). -/
def execLoadv (a : Reg) (imm : Word) (s : State) : Host.Outcome State Fault Refusal :=
  .next (aluResult a (literal imm) s)

end Sys2Proof.Machine
end

