-- ==== Sys2Proof/Machine/Console.lean ====
section
/-!
DEFINITION. The console primitives `In` and `Out` (R141, R142) and the instructions OUT and IN (R143, R144).
-/

namespace Sys2Proof.Machine

/-- The word a token is delivered as: a byte zero-extended, end-of-input as 0xFFFFFFFF (R141). -/
def Token.word : Token → Word
  | .byte b => b.setWidth 32
  | .eof => 0xFFFFFFFF#32

/-- The token number `in_pos` of the input, if the environment has supplied it (R141). -/
def State.nextToken (s : State) : Option Token := s.input[s.inPos]?

/-- The byte OUT emits for a value; a value above 255 raises `InvalidOutput` and is not truncated (R143). -/
def outputByte (v : Word) : Except Cause Byte :=
  if 255 < v.toNat then .error (.invalidOutput v) else .ok (v.setWidth 8)

/-- OUT: the byte x[C] is emitted (R143). -/
def execOut (c : Reg) (s : State) : Host.Outcome State Fault Refusal :=
  orRaise (outputByte (s.reg c)) s fun b => (s.emit b).advance

/-- IN: `x[C] <-` the next token's word. While the token is not available the machine is held: no state changes and
`pc` still points at the IN instruction, so the step answers the same state again (R141, R144; log entry 7). -/
def execIn (c : Reg) (s : State) : Host.Outcome State Fault Refusal :=
  match s.nextToken with
  | none => .next s
  | some t => .next ((s.consumeToken.setReg c t.word).advance)

end Sys2Proof.Machine
end

