-- ==== Sys2Proof/Machine/Engine.lean ====
section
/-!
DEFINITION. HALT, the one instruction the execution engine handles itself (R153, R155).
-/

namespace Sys2Proof.Machine

/-- HALT: `run <- Halted`; nothing else changes, `pc` stays at the HALT word (R155). -/
def execHalt (s : State) : Host.Outcome State Fault Refusal := .next (s.setRun .halted)

end Sys2Proof.Machine
end

