-- ==== Sys2Proof/Machine/Segments.lean ====
section
/-!
DEFINITION. The segment instructions SLOAD, SSTORE, MAP, UNMAP and LOADP (R120 to R126). Every check precedes every
change, so a faulting one changes nothing but the run state (R120 (d)).
-/

namespace Sys2Proof.Machine

/-- SLOAD: `x[A] <-` the word at segment x[B], offset x[C] (R121). -/
def execSload (a b c : Reg) (s : State) : Host.Outcome State Fault Refusal :=
  orRaise (Memory.read s.segs (s.addressBC b c).1 (s.addressBC b c).2) s fun v => (s.setReg a v).advance

/-- SSTORE: the word at segment x[A], offset x[B] `<- x[C]` (R122). -/
def execSstore (a b c : Reg) (s : State) : Host.Outcome State Fault Refusal :=
  orRaise (Memory.write s.segs (s.addressAB a b).1 (s.addressAB a b).2 (s.reg c)) s fun m => (s.setSegs m).advance

/-- MAP: `x[B] <-` the handle of a new segment of x[C] words of 0 (R123). -/
def execMap (b c : Reg) (s : State) : Host.Outcome State Fault Refusal :=
  orRaise (s.allocSegment (s.reg c)) s fun p => (p.2.setReg b p.1).advance

/-- UNMAP: the segment at handle x[C] is destroyed (R124). -/
def execUnmap (c : Reg) (s : State) : Host.Outcome State Fault Refusal :=
  orRaise (s.freeSegment (s.reg c)) s fun t => t.advance

/-- LOADP: segment 0 becomes a copy of segment x[B] unless x[B] = 0, and `pc <- x[C]` with no increment (R125). -/
def execLoadp (b c : Reg) (s : State) : Host.Outcome State Fault Refusal :=
  orRaise (s.replaceProgram (s.reg b)) s fun t => t.setPc (s.reg c)

end Sys2Proof.Machine
end

