-- ==== Sys2Proof/Machine/Step.lean ====
section
/-!
DEFINITION. The step (R150): fetch, decode, dispatch, execute, advance, defined only while the run state is
`Running`; and the placing of one instruction where the next step fetches.
-/

namespace Sys2Proof.Machine

/-- One step (R150). The advance is part of each meaning, since HALT and LOADP have none (R154). From a terminal
run state no step is defined (R28), which the model says by a fault named after that state. -/
def step (s : State) : Host.Outcome State Fault Refusal :=
  match s.run with
  | .halted => .fault .halted
  | .faulted c => .fault (.faulted c)
  | .running =>
    match s.fetchDecode with
    | .error c => raise c s
    | .ok i => exec i s

/-- The state with an instruction word placed at `pc` in segment 0 and the run state `Running`, so that the next
step fetches and runs it (log entry 9). -/
def State.withFetchWord (s : State) (nbits w : Nat) : State :=
  { s with
    run := .running
    segs := Memory.placeWord s.segs s.pc.toNat (BitVec.ofNat 32 (w % 2 ^ nbits)) }

end Sys2Proof.Machine
end

