-- ==== Sys2Proof/Safety.lean ====
section
/-!
DEFINITION. The terms claims use: the invariant of reachable states (R31, R6, R47, R49), what an instruction leaves
unchanged, runs, and what the environment observes (R207).
-/

namespace Sys2Proof.Machine

/-! ## The invariant -/

/-- The allocator state agrees with the segment table. For the reference policy of R49: the handles 1 to `next - 1`
are those issued so far, and each of them is either mapped or waiting in `free`, once. The contract of R48 needs
no such agreement for a drawn handle, which is checked at each draw. -/
def Alloc.agrees (al : Alloc) (m : Memory) : Prop :=
  match al with
  | .drawn _ => True
  | .reference free next =>
    1 ≤ next ∧ next ≤ Config.handleCount ∧ free.Nodup ∧
      (∀ h : Word, h ∈ free → h ≠ 0#32 ∧ h.toNat < next) ∧
      (∀ h : Word, Memory.mapped m h = true → h.toNat < next) ∧
      (∀ h : Word, h ≠ 0#32 → h.toNat < next → (Memory.mapped m h = true ↔ h ∉ free))

/-- What holds in every state a run reaches. -/
structure State.Inv (s : State) : Prop where
  /-- The segment table is in canonical form, every length a 32-bit number (R6, R30, R31). -/
  memory : Memory.wf s.segs = true
  /-- "handle 0 always maps to a present segment" (R31 (i)). -/
  program : Memory.mapped s.segs 0#32 = true
  /-- The allocator state fits the table (R48, R49). -/
  alloc : s.alloc.agrees s.segs
  /-- Only supplied tokens have been consumed (R141). -/
  input : s.inPos ≤ s.input.length
  /-- The mapped words are within the capacity (R47, R125, R202). -/
  capacity : s.fits (Memory.used s.segs) = true
  /-- No run is in the fault state of a refused reset (R181). -/
  loaded : s.run ≠ .faulted .loadFault
  /-- The machine decodes under an admissible opcode map (R7, decision D1). -/
  opmap : OpMap.wf s.opmap = true

/-! ## Frames -/

/-- Every register outside the list holds what it held. -/
def regsKept (changed : List Reg) (s t : State) : Prop := ∀ r : Reg, r ∉ changed → t.reg r = s.reg r

/-- The segment table and the allocator are untouched: every word reads, or fails to read, as before. -/
def memoryKept (s t : State) : Prop :=
  t.segs = s.segs ∧ t.alloc = s.alloc ∧ ∀ h o : Word, Memory.read t.segs h o = Memory.read s.segs h o

/-- The console has not moved: no token consumed, no byte emitted. -/
def consoleKept (s t : State) : Prop := t.inPos = s.inPos ∧ t.out = s.out

/-- The parameters are as they were: no step changes one (R7). -/
def parametersKept (s t : State) : Prop := t.input = s.input ∧ t.capacity = s.capacity ∧ t.opmap = s.opmap

/-- The advance phase has taken place and the run state is untouched (R154). -/
def advanced (s t : State) : Prop := t.pc.toNat = (s.pc.toNat + 1) % 4294967296 ∧ t.run = s.run

/-- The step ended in a fault: the run state records the cause and nothing else differs (R176). -/
def faultedWith (c : Cause) (s t : State) : Prop := t = { s with run := .faulted c }

/-- The length of the segment a handle identifies, `none` for an unmapped handle. -/
def Memory.lengthAt (m : Memory) (h : Word) : Option Nat := (Memory.seg? m h).map Segment.len

/-! ## Runs -/

/-- The states a run can be in: a machine step, or the environment supplying one more input token (R141, R157). -/
inductive Reaches : State → State → Prop where
  | refl (s : State) : Reaches s s
  | step {s t u : State} : Reaches s t → step t = .next u → Reaches s u
  | supply {s t : State} (k : Token) : Reaches s t → Reaches s (t.supplyToken k)

/-- A run that has not been aborted by a fault (R157). -/
def State.safe (s : State) : Prop := ∀ c : Cause, s.run ≠ .faulted c

/-- What the environment can observe of a run: the output, the tokens consumed, the run state (R207). -/
def State.observed (s : State) : List Byte × Nat × RunState := (s.out, s.inPos, s.run)

end Sys2Proof.Machine
end

