-- ==== Sys2Proof/Certificates/Slice0/Obligations.lean ====
section
/-!
DEFINITION. The statements for the provers. Bound variables of an instruction carry the roles its rule gives the
operands; which field letter plays which role enters through decoding alone (log entry 2).
-/

open Sys2Proof Sys2Proof.Machine

/-! ## Encoding -/

/-- R84, for every admissible `OPMAP` (R7, decision D1): decoding the canonical word of a well-formed instruction
gives the instruction back. -/
def Obligations.DecodeOfEncodeUnderEveryOpcodeMap : Prop :=
  ∀ m : OpMap, OpMap.wf m = true → ∀ i : Instr, i.wf = true → decodeWith m (encodeWith m i) = .ok i

/-- R84, last sentence, for every admissible `OPMAP`: what the decoder reads is well formed, and encoding it again
clears exactly the bits its format does not read. -/
def Obligations.EncodeOfDecodeIsCanonicalWord : Prop :=
  ∀ m : OpMap, OpMap.wf m = true → ∀ (w : Word) (i : Instr), decodeWith m w = .ok i →
    i.wf = true ∧ encodeWith m i = w &&& i.op.format.readMask

/-- R78: the bits that R72 to R75 mark as ignored do not affect decoding, and what they are in each format. -/
def Obligations.IgnoredBitsDoNotAffectDecoding : Prop :=
  (∀ m : OpMap, OpMap.wf m = true → ∀ (w : Word) (o : Op), m[opcodeField w]? = some o →
    decodeWith m w = decodeWith m (w &&& o.format.readMask)) ∧
  (∀ m : OpMap, OpMap.wf m = true → ∀ w : Word, opcodeField w = 7 → decodeWith m w = .ok .halt) ∧
  ∀ k : Nat, k < 32 →
    (Format.abc.readMask.getLsbD k = decide (28 ≤ k ∨ k ≤ 8)) ∧
    (Format.bc.readMask.getLsbD k = decide (28 ≤ k ∨ k ≤ 5)) ∧
    (Format.c.readMask.getLsbD k = decide (28 ≤ k ∨ k ≤ 2)) ∧
    (Format.none.readMask.getLsbD k = decide (28 ≤ k)) ∧
    (Format.lit.readMask.getLsbD k = true)

/-- R81: every word is one of the 14 instructions, by its opcode alone, or illegal with opcode 14 or 15; the illegal
words are those from 0xE0000000 up (R79). -/
def Obligations.EveryWordIsAnInstructionOrIllegal : Prop :=
  ∀ m : OpMap, OpMap.wf m = true → ∀ w : Word,
    (opcodeField w < 14 → ∃ i, decodeWith m w = .ok i ∧ m[opcodeField w]? = some i.op) ∧
    (14 ≤ opcodeField w → decodeWith m w = .error (.invalidOpcode w)) ∧
    (14 ≤ opcodeField w ↔ 3758096384 ≤ w.toNat)

/-- Words of the test vectors of 95_test_vectors.md, one per instruction; they rest on the default opcode map and on
the operand roles (log entries 1 and 2). -/
def Obligations.SpecWordsDecodeAsListed : Prop :=
  decode 0x00000053#32 = .ok (.cmov 1 2 3) ∧ decode 0x10000195#32 = .ok (.sload 6 2 5) ∧
  decode 0x2000009C#32 = .ok (.sstore 2 3 4) ∧ decode 0x3FFFFE53#32 = .ok (.add 1 2 3) ∧
  decode 0x40000123#32 = .ok (.mul 4 4 3) ∧ decode 0x50000088#32 = .ok (.div 2 1 0) ∧
  decode 0x60000089#32 = .ok (.nand 2 1 1) ∧ decode 0x7ABCDEF0#32 = .ok .halt ∧
  decode 0x8FFFFFD3#32 = .ok (.map 2 3) ∧ decode 0x90000002#32 = .ok (.unmap 2) ∧
  decode 0xA0000001#32 = .ok (.out 1) ∧ decode 0xB0000008#32 = .ok (.inp 0) ∧
  decode 0xC0000016#32 = .ok (.loadp 2 6) ∧ decode 0xD1FFFFFF#32 = .ok (.loadv 0 0x1FFFFFF#32) ∧
  decode 0xE0000000#32 = .error (.invalidOpcode 0xE0000000#32)

/-- R203: the image as bytes is big-endian, four bytes a word; a stream whose length is no multiple of 4 is no image. -/
def Obligations.ImageBytesAreBigEndianWords : Prop :=
  ∀ bytes : List Byte,
    (bytes.length % 4 = 0 → ∃ ws, imageOfBytes bytes = some ws ∧ 4 * ws.length = bytes.length ∧
      ∀ i, i < ws.length → (ws.getD i 0#32).toNat =
        (bytes.getD (4 * i) 0#8).toNat * 2 ^ 24 + (bytes.getD (4 * i + 1) 0#8).toNat * 2 ^ 16 +
          (bytes.getD (4 * i + 2) 0#8).toNat * 2 ^ 8 + (bytes.getD (4 * i + 3) 0#8).toNat) ∧
    (bytes.length % 4 ≠ 0 → imageOfBytes bytes = none)

/-! ## Reset -/

/-- R204 with R202: reset is refused when the image cannot be obtained, is not a whole number of words, has 2^32 words
or more, or exceeds the capacity; otherwise it succeeds. The bound on words is decision D14. -/
def Obligations.ResetRefusesExactlyTheBadImages : Prop :=
  ∀ (opmap : OpMap) (input : List Token) (capacity : Option Nat) (reference : Bool),
    boot none opmap input capacity reference = .fault (.faulted .loadFault) ∧
    ∀ bytes : List Byte,
      ((bytes.length % 4 ≠ 0 ∨ 4 * 4294967296 ≤ bytes.length ∨ ∃ cap, capacity = some cap ∧ 4 * cap < bytes.length) →
        boot (some bytes) opmap input capacity reference = .fault (.faulted .loadFault)) ∧
      (bytes.length % 4 = 0 → bytes.length < 4 * 4294967296 →
        (∀ cap, capacity = some cap → bytes.length ≤ 4 * cap) →
        ∃ s, boot (some bytes) opmap input capacity reference = .next s)

/-- R201 with the table of R33: the state after a successful reset. That the reference policy starts with no released
handle and 1 as the next one is decision D7 (log entry 3). -/
def Obligations.ResetStateIsTheTableOfInitialValues : Prop :=
  ∀ (image : List Word) (opmap : OpMap) (input : List Token) (capacity : Option Nat) (reference : Bool) (s : State),
    bootWords image opmap input capacity reference = .next s →
    (∀ r : Reg, s.reg r = 0#32) ∧ s.pc = 0#32 ∧ s.run = .running ∧
    (∀ h : Word, Memory.mapped s.segs h = true ↔ h = 0#32) ∧
    Memory.lengthAt s.segs 0#32 = some image.length ∧
    (∀ o : Word, o.toNat < image.length → Memory.read s.segs 0#32 o = .ok (image.getD o.toNat 0#32)) ∧
    s.alloc = Alloc.initial reference ∧ (reference = true → s.alloc = .reference [] 1) ∧
    (reference = false → s.alloc.isReference = false) ∧ s.inPos = 0 ∧ s.out = [] ∧
    s.input = input ∧ s.capacity = capacity ∧ s.opmap = opmap ∧
    (0 < image.length → s.fetch = .ok (image.getD 0 0#32))

/-- The state after reset with nothing placed meets the invariant. -/
def Obligations.ResetMeetsInvariant : Prop := State.reset.Inv

/-- Every state a reset can produce, whatever the image, the input, the capacity, the policy and the admissible opcode
map, meets the invariant. -/
def Obligations.EveryBootMeetsInvariant : Prop :=
  ∀ (file : Option (List Byte)) (opmap : OpMap) (input : List Token) (capacity : Option Nat) (reference : Bool)
    (s : State), OpMap.wf opmap = true → boot file opmap input capacity reference = .next s → s.Inv

/-! ## The step -/

/-- R150: while running, a word of segment 0 at `pc` that decodes, under the machine's own `OPMAP`, to an instruction makes the step that instruction's
execution; every meaning contains its own advance (R154). -/
def Obligations.StepRunsTheDecodedInstruction : Prop :=
  ∀ (s : State) (w : Word) (i : Instr), s.run = .running → Memory.read s.segs 0#32 s.pc = .ok w →
    decodeWith s.opmap w = .ok i → i.wf = true → step s = exec i s

/-- R151, R152 and the order of R182: a `pc` not below the length of segment 0 faults before anything is decoded, and a
fetched word with opcode 14 or 15 faults before anything is executed, under every admissible opcode map. That nothing but the run state changes is
decision D10 (log entry 6). -/
def Obligations.FetchAndDecodeFaultsInOrder : Prop :=
  (∀ (s : State) (n : Nat), s.run = .running → Memory.lengthAt s.segs 0#32 = some n → n ≤ s.pc.toNat →
    step s = .next { s with run := .faulted (.fetchOutOfBounds s.pc) }) ∧
  ∀ (s : State) (w : Word), s.run = .running → OpMap.wf s.opmap = true → Memory.read s.segs 0#32 s.pc = .ok w →
    14 ≤ opcodeField w →
    step s = .next { s with run := .faulted (.invalidOpcode w) }

/-- R28: a step is defined from `Running` alone, and from there always. That the hold of IN counts as a step, which
answers the same state again, is the model's choice (log entry 7). -/
def Obligations.StepIsDefinedExactlyWhileRunning : Prop :=
  ∀ s : State, (∃ t, step s = .next t) ↔ s.run = .running

/-- R183: a halted or faulted machine stays as it is, whatever the environment still supplies. -/
def Obligations.TerminalRunStatesAreFinal : Prop :=
  ∀ s t : State, s.run ≠ .running → Reaches s t → ∃ ks : List Token, t = { s with input := s.input ++ ks }

/-- R176: a step that ends in a fault changes the run state and nothing else, and no step raises `LoadFault` (R181).
That the rest of the state is kept is decision D10 (log entry 6). -/
def Obligations.FaultChangesOnlyTheRunState : Prop :=
  ∀ (s t : State) (c : Cause), step s = .next t → t.run = .faulted c → faultedWith c s t ∧ c ≠ .loadFault

/-- The column "raised by" of R170 with its conditions: which instruction raises which fault, when, and what it
records. The recorded values are decision D9 (log entry 6), and `ResourceExhausted` with its conditions is decision D8
(log entry 5). -/
def Obligations.FaultsComeOnlyFromTheirCauses : Prop :=
  ∀ (i : Instr) (s t : State) (k : Cause), s.run = .running → exec i s = .next t → t.run = .faulted k →
    match k with
    | .invalidOpcode _ => False
    | .fetchOutOfBounds _ => False
    | .loadFault => False
    | .invalidSegment h => Memory.mapped s.segs h = false ∧
        ((∃ dst hd off, i = .sload dst hd off ∧ h = s.reg hd) ∨ (∃ hd off v, i = .sstore hd off v ∧ h = s.reg hd) ∨
          ∃ hd target, i = .loadp hd target ∧ h = s.reg hd)
    | .segmentOutOfBounds h o => (∃ n, Memory.lengthAt s.segs h = some n ∧ n ≤ o.toNat) ∧
        ((∃ dst hd off, i = .sload dst hd off ∧ h = s.reg hd ∧ o = s.reg off) ∨
          ∃ hd off v, i = .sstore hd off v ∧ h = s.reg hd ∧ o = s.reg off)
    | .invalidRelease h => (h = 0#32 ∨ Memory.mapped s.segs h = false) ∧ ∃ c, i = .unmap c ∧ h = s.reg c
    | .divisionByZero => ∃ dst x y, i = .div dst x y ∧ s.reg y = 0#32
    | .invalidOutput v => 255 < v.toNat ∧ ∃ c, i = .out c ∧ v = s.reg c
    | .resourceExhausted =>
        (∃ dst len, i = .map dst len ∧
          ((∃ cap, s.capacity = some cap ∧ cap < Memory.used s.segs + (s.reg len).toNat) ∨
            ∀ u : Word, u ≠ 0#32 → Memory.mapped s.segs u = true)) ∨
          ∃ hd target g cap, i = .loadp hd target ∧ s.reg hd ≠ 0#32 ∧ Memory.seg? s.segs (s.reg hd) = some g ∧
            s.capacity = some cap ∧ cap < Memory.used s.segs - Memory.len0 s.segs + g.len

/-- Every step keeps the invariant: canonical memory, segment 0 mapped (R31), the allocator in agreement with the
segment table (R48, R49), no more input consumed than supplied (R141), the capacity respected (R47, R125), the opcode
map admissible (R7). -/
def Obligations.StepKeepsInvariant : Prop :=
  ∀ s t : State, s.Inv → step s = .next t → t.Inv

/-- The invariant holds in every state any run reaches, from any accepted image under any parameters. -/
def Obligations.BootedRunsKeepInvariant : Prop :=
  ∀ (file : Option (List Byte)) (opmap : OpMap) (input : List Token) (capacity : Option Nat) (reference : Bool)
    (s t : State), OpMap.wf opmap = true → boot file opmap input capacity reference = .next s → Reaches s t → t.Inv

/-- R25: at `pc = 0xFFFFFFFF` the fetch always faults, so the wrap of the advance is never seen. The bound on lengths it
rests on is decisions D14 and D15 (log entry 9). -/
def Obligations.PcWrapIsUnreachable : Prop :=
  ∀ s t : State, s.Inv → step s = .next t → s.pc = 0xFFFFFFFF#32 →
    faultedWith (.fetchOutOfBounds 0xFFFFFFFF#32) s t

/-- R24: how an execution changes `pc`. That HALT and a fault leave it is decisions D11 and D10 (log entries 6, 10); a
held IN leaves the whole state (log entry 7). -/
def Obligations.PcAfterEachInstruction : Prop :=
  ∀ (i : Instr) (s t : State), s.run = .running → exec i s = .next t →
    (t.run ≠ .running → t.pc = s.pc) ∧
    (t.run = .running →
      match i with
      | .loadp _ target => t.pc = s.reg target
      | .inp _ => (s.inPos < s.input.length ∧ t.pc.toNat = (s.pc.toNat + 1) % 2 ^ 32) ∨
          (s.input.length ≤ s.inPos ∧ t = s)
      | _ => t.pc.toNat = (s.pc.toNat + 1) % 2 ^ 32)

/-- R22, the writes: a register that an execution changes is the instruction's destination, and SSTORE, HALT, UNMAP, OUT
and LOADP change none. The letters are log entry 2. -/
def Obligations.OnlyTheDestinationRegisterChanges : Prop :=
  ∀ (i : Instr) (s t : State) (r : Reg), exec i s = .next t → t.reg r ≠ s.reg r →
    match i with
    | .cmov dst _ _ => r = dst
    | .sload dst _ _ => r = dst
    | .add dst _ _ => r = dst
    | .mul dst _ _ => r = dst
    | .div dst _ _ => r = dst
    | .nand dst _ _ => r = dst
    | .loadv dst _ => r = dst
    | .map dst _ => r = dst
    | .inp dst => r = dst
    | .sstore _ _ _ => False
    | .halt => False
    | .unmap _ => False
    | .out _ => False
    | .loadp _ _ => False

/-- R22, the reads: a register that is no source of an instruction has no influence on anything but itself. The
letters are log entry 2. -/
def Obligations.OnlySourceRegistersInfluenceExecution : Prop :=
  ∀ (i : Instr) (s : State) (r : Reg) (v : Word), r ∉ sources i →
    ∃ t t', exec i s = .next t ∧ exec i (s.setReg r v) = .next t' ∧
      (∀ q, q ≠ r → t'.reg q = t.reg q) ∧ t'.pc = t.pc ∧ t'.run = t.run ∧ t'.segs = t.segs ∧ t'.alloc = t.alloc ∧
      t'.inPos = t.inPos ∧ t'.out = t.out

/-- R31 (iii): a handle enters the table only by MAP, which returns it, and leaves it only by UNMAP, which names it;
handle 0 never leaves. -/
def Obligations.HandlesEnterByMapAndLeaveByUnmap : Prop :=
  ∀ (i : Instr) (s t : State) (h : Word), Memory.mapped s.segs 0#32 = true → exec i s = .next t →
    (Memory.mapped s.segs h = false → Memory.mapped t.segs h = true → ∃ dst len, i = .map dst len ∧ t.reg dst = h) ∧
    (Memory.mapped s.segs h = true → Memory.mapped t.segs h = false → h ≠ 0#32 ∧ ∃ c, i = .unmap c ∧ s.reg c = h)

/-- R30: the words of a segment change only by a SSTORE to it or, for handle 0, by LOADP; it disappears only by UNMAP;
and its length never changes while its handle stays mapped, but for segment 0 under LOADP (R125). -/
def Obligations.SegmentsChangeOnlyByStoreOrLoadp : Prop :=
  ∀ (i : Instr) (s t : State) (h : Word) (g : Segment), s.Inv → exec i s = .next t →
    Memory.seg? s.segs h = some g →
    (Memory.seg? t.segs h = some g ∨ (∃ hd off v, i = .sstore hd off v ∧ s.reg hd = h) ∨
      (∃ hd target, i = .loadp hd target ∧ h = 0#32) ∨ ∃ c, i = .unmap c ∧ s.reg c = h) ∧
    ((h ≠ 0#32 ∨ ∀ hd target, i ≠ .loadp hd target) → Memory.mapped t.segs h = true →
      Memory.lengthAt t.segs h = some g.len)

/-- R141 and R142: only IN consumes input, one supplied token at a time, and only OUT emits, one byte after all earlier
ones. -/
def Obligations.ConsoleMovesOnlyByInAndOut : Prop :=
  ∀ (i : Instr) (s t : State), exec i s = .next t →
    (t.out = s.out ∨ ∃ c b, i = .out c ∧ (s.reg c).toNat = b.toNat ∧ t.out = s.out ++ [b]) ∧
    (t.inPos = s.inPos ∨ ∃ c, i = .inp c ∧ s.inPos < s.input.length ∧ t.inPos = s.inPos + 1)

/-- R32 (b): no program can observe the bytes it has emitted; a longer history changes no step. -/
def Obligations.OutputHistoryIsNeverRead : Prop :=
  ∀ (s t : State) (earlier : List Byte), step s = .next t →
    step { s with out := earlier ++ s.out } = .next { t with out := earlier ++ t.out }

/-- R32 (a): the allocator's hidden state is observed through the handles of MAP alone. -/
def Obligations.AllocatorStateIsSeenOnlyByMap : Prop :=
  ∀ (i : Instr) (s t : State) (al : Alloc), (∀ dst len, i ≠ .map dst len) → exec i s = .next t →
    ∃ al', exec i { s with alloc := al } = .next { t with alloc := al' }

/-- R20: the parameters are not state that a step changes: the input supplied, the capacity, the opcode map and which
allocation policy runs stay as they are. -/
def Obligations.StepKeepsParameters : Prop :=
  ∀ s t : State, step s = .next t → parametersKept s t ∧ t.alloc.isReference = s.alloc.isReference

/-! ## ALU instructions -/

/-- R101: CMOV moves exactly when the condition register is not 0, and otherwise changes no register. -/
def Obligations.CmovMovesWhenConditionIsNotZero : Prop :=
  ∀ (dst src cond : Reg) (s : State), ∃ t, exec (.cmov dst src cond) s = .next t ∧
    t.reg dst = (if (s.reg cond).toNat ≠ 0 then s.reg src else s.reg dst) ∧
    regsKept [dst] s t ∧ memoryKept s t ∧ consoleKept s t ∧ parametersKept s t ∧ advanced s t

/-- R102: ADD is the sum modulo 2^32. -/
def Obligations.AddWritesSumModuloWord : Prop :=
  ∀ (dst x y : Reg) (s : State), ∃ t, exec (.add dst x y) s = .next t ∧
    (t.reg dst).toNat = ((s.reg x).toNat + (s.reg y).toNat) % 2 ^ 32 ∧
    regsKept [dst] s t ∧ memoryKept s t ∧ consoleKept s t ∧ parametersKept s t ∧ advanced s t

/-- R103: MUL is the low 32 bits of the product. -/
def Obligations.MulWritesProductModuloWord : Prop :=
  ∀ (dst x y : Reg) (s : State), ∃ t, exec (.mul dst x y) s = .next t ∧
    (t.reg dst).toNat = ((s.reg x).toNat * (s.reg y).toNat) % 2 ^ 32 ∧
    regsKept [dst] s t ∧ memoryKept s t ∧ consoleKept s t ∧ parametersKept s t ∧ advanced s t

/-- R104: NAND is the complement of the bitwise and; bit i of the result is 1 unless bit i of both sources is 1. -/
def Obligations.NandWritesComplementOfAnd : Prop :=
  ∀ (dst x y : Reg) (s : State), ∃ t, exec (.nand dst x y) s = .next t ∧
    (t.reg dst).toNat = 2 ^ 32 - 1 - ((s.reg x).toNat &&& (s.reg y).toNat) ∧
    (∀ k, k < 32 → (t.reg dst).getLsbD k = !((s.reg x).getLsbD k && (s.reg y).getLsbD k)) ∧
    regsKept [dst] s t ∧ memoryKept s t ∧ consoleKept s t ∧ parametersKept s t ∧ advanced s t

/-- R105: DIV is the unsigned quotient rounded down; a zero divisor faults whatever the dividend, and nothing is
written. -/
def Obligations.DivWritesQuotientOrFaults : Prop :=
  ∀ (dst x y : Reg) (s : State),
    ((s.reg y).toNat ≠ 0 → ∃ t, exec (.div dst x y) s = .next t ∧
      (t.reg dst).toNat = (s.reg x).toNat / (s.reg y).toNat ∧
      regsKept [dst] s t ∧ memoryKept s t ∧ consoleKept s t ∧ parametersKept s t ∧ advanced s t) ∧
    ((s.reg y).toNat = 0 → exec (.div dst x y) s = .next { s with run := .faulted .divisionByZero })

/-- R106: LOADV writes the 25-bit literal zero-extended: bits 31:25 become 0, and a literal that has an encoding is
written as it is. What a literal of 2^25 or more gives, which no word encodes (conflict C1), is the model's choice (log
entry 13). -/
def Obligations.LoadvWritesZeroExtendedLiteral : Prop :=
  ∀ (dst : Reg) (imm : Word) (s : State), ∃ t, exec (.loadv dst imm) s = .next t ∧
    (t.reg dst).toNat = imm.toNat % 2 ^ 25 ∧ ((Instr.loadv dst imm).wf = true → t.reg dst = imm) ∧
    regsKept [dst] s t ∧ memoryKept s t ∧ consoleKept s t ∧ parametersKept s t ∧ advanced s t

/-! ## Segment instructions -/

/-- R121: SLOAD reads one word of a mapped segment below its length; an unmapped handle, then an offset not below the
length, faults with nothing written. That the fault keeps the rest of the state, what it records and that the handle is
checked first are decisions D10, D9 and D12 (log entry 6). -/
def Obligations.SloadReadsTheAddressedWordOrFaults : Prop :=
  ∀ (dst handle offset : Reg) (s : State),
    (∀ g, Memory.seg? s.segs (s.reg handle) = some g → (s.reg offset).toNat < g.len →
      ∃ t, exec (.sload dst handle offset) s = .next t ∧ t.reg dst = g.read (s.reg offset).toNat ∧
        regsKept [dst] s t ∧ memoryKept s t ∧ consoleKept s t ∧ parametersKept s t ∧ advanced s t) ∧
    (Memory.seg? s.segs (s.reg handle) = none →
      exec (.sload dst handle offset) s = .next { s with run := .faulted (.invalidSegment (s.reg handle)) }) ∧
    (∀ g, Memory.seg? s.segs (s.reg handle) = some g → g.len ≤ (s.reg offset).toNat →
      exec (.sload dst handle offset) s =
        .next { s with run := .faulted (.segmentOutOfBounds (s.reg handle) (s.reg offset)) })

/-- R122: SSTORE changes exactly the word at the address it forms, no other word, no length, no register; an unmapped
handle, then an offset not below the length, faults with memory unchanged. That the fault keeps the rest of the state,
what it records and that the handle is checked first are decisions D10, D9 and D12 (log entry 6). -/
def Obligations.SstoreChangesExactlyTheAddressedWordOrFaults : Prop :=
  ∀ (handle offset value : Reg) (s : State),
    (∀ g, Memory.seg? s.segs (s.reg handle) = some g → (s.reg offset).toNat < g.len →
      ∃ t, exec (.sstore handle offset value) s = .next t ∧
        Memory.read t.segs (s.addressAB handle offset).1 (s.addressAB handle offset).2 = .ok (s.reg value) ∧
        (∀ h o : Word, (h, o) ≠ s.addressAB handle offset → Memory.read t.segs h o = Memory.read s.segs h o) ∧
        (∀ h : Word, Memory.lengthAt t.segs h = Memory.lengthAt s.segs h) ∧
        t.alloc = s.alloc ∧ regsKept [] s t ∧ consoleKept s t ∧ parametersKept s t ∧ advanced s t) ∧
    (Memory.seg? s.segs (s.reg handle) = none →
      exec (.sstore handle offset value) s = .next { s with run := .faulted (.invalidSegment (s.reg handle)) }) ∧
    (∀ g, Memory.seg? s.segs (s.reg handle) = some g → g.len ≤ (s.reg offset).toNat →
      exec (.sstore handle offset value) s =
        .next { s with run := .faulted (.segmentOutOfBounds (s.reg handle) (s.reg offset)) })

/-- R123 under the contract of R48, for every allocation policy: MAP returns a handle that is not 0 and was not mapped,
maps it to a new segment of that many words, every one 0, and touches no other segment. -/
def Obligations.MapCreatesZeroFilledSegment : Prop :=
  ∀ (dst len : Reg) (s : State), s.Inv →
    (∀ cap, s.capacity = some cap → Memory.used s.segs + (s.reg len).toNat ≤ cap) →
    (∃ u : Word, u ≠ 0#32 ∧ Memory.mapped s.segs u = false) →
    ∃ t h, exec (.map dst len) s = .next t ∧ h ≠ 0#32 ∧ Memory.mapped s.segs h = false ∧ t.reg dst = h ∧
      Memory.lengthAt t.segs h = some (s.reg len).toNat ∧
      (∀ o : Word, o.toNat < (s.reg len).toNat → Memory.read t.segs h o = .ok 0#32) ∧
      (∀ h' : Word, h' ≠ h → Memory.seg? t.segs h' = Memory.seg? s.segs h') ∧
      regsKept [dst] s t ∧ consoleKept s t ∧ parametersKept s t ∧ advanced s t

/-- R47 and R179: MAP beyond the capacity, or with every handle but 0 mapped, raises `ResourceExhausted`, which is the
spec's own fault (decision D8, log entry 5). That a fault keeps the rest of the state is decision D10 (log entry 6). -/
def Obligations.MapFaultsWhenResourcesAreExhausted : Prop :=
  ∀ (dst len : Reg) (s : State),
    (∀ cap, s.capacity = some cap → cap < Memory.used s.segs + (s.reg len).toNat →
      exec (.map dst len) s = .next { s with run := .faulted .resourceExhausted }) ∧
    (s.Inv → (∀ u : Word, u ≠ 0#32 → Memory.mapped s.segs u = true) →
      exec (.map dst len) s = .next { s with run := .faulted .resourceExhausted })

/-- R124: UNMAP destroys the segment at its handle and no other; handle 0 and an unmapped handle fault with nothing
changed (decisions D9 and D10, log entry 6). -/
def Obligations.UnmapDestroysTheSegmentOrFaults : Prop :=
  ∀ (handle : Reg) (s : State),
    (s.reg handle ≠ 0#32 → Memory.mapped s.segs (s.reg handle) = true →
      ∃ t, exec (.unmap handle) s = .next t ∧ Memory.seg? t.segs (s.reg handle) = none ∧
        (∀ h : Word, h ≠ s.reg handle → Memory.seg? t.segs h = Memory.seg? s.segs h) ∧
        regsKept [] s t ∧ consoleKept s t ∧ parametersKept s t ∧ advanced s t) ∧
    ((s.reg handle = 0#32 ∨ Memory.mapped s.segs (s.reg handle) = false) →
      exec (.unmap handle) s = .next { s with run := .faulted (.invalidRelease (s.reg handle)) })

/-- R125: LOADP from a handle other than 0 makes segment 0 a copy, leaves every other segment, and sets `pc`; from handle
0 it only sets `pc`; an unmapped handle faults, and so does a copy beyond the capacity (decision D8, log entry 5).
The state a fault leaves and what it records are decisions D10 and D9 (log entry 6). -/
def Obligations.LoadpReplacesTheProgramAndJumps : Prop :=
  ∀ (handle target : Reg) (s : State),
    (∀ g, s.reg handle ≠ 0#32 → Memory.seg? s.segs (s.reg handle) = some g →
      (∀ cap, s.capacity = some cap → Memory.used s.segs - Memory.len0 s.segs + g.len ≤ cap) →
      ∃ t, exec (.loadp handle target) s = .next t ∧ t.pc = s.reg target ∧ Memory.seg? t.segs 0#32 = some g ∧
        (∀ h : Word, h ≠ 0#32 → Memory.seg? t.segs h = Memory.seg? s.segs h) ∧
        t.alloc = s.alloc ∧ t.run = s.run ∧ regsKept [] s t ∧ consoleKept s t ∧ parametersKept s t) ∧
    (s.reg handle = 0#32 → Memory.mapped s.segs 0#32 = true →
      exec (.loadp handle target) s = .next { s with pc := s.reg target }) ∧
    (Memory.mapped s.segs (s.reg handle) = false →
      exec (.loadp handle target) s = .next { s with run := .faulted (.invalidSegment (s.reg handle)) }) ∧
    (∀ g cap, s.reg handle ≠ 0#32 → Memory.seg? s.segs (s.reg handle) = some g → s.capacity = some cap →
      cap < Memory.used s.segs - Memory.len0 s.segs + g.len →
      exec (.loadp handle target) s = .next { s with run := .faulted .resourceExhausted })

/-! ## Console instructions and HALT -/

/-- R143: OUT emits the byte of a value up to 255; a larger value faults and nothing is emitted. That the fault keeps the
rest of the state and records the value are decisions D10 and D9 (log entry 6). -/
def Obligations.OutEmitsTheByteOrFaults : Prop :=
  ∀ (value : Reg) (s : State),
    ((s.reg value).toNat ≤ 255 → ∃ t b, exec (.out value) s = .next t ∧ t.out = s.out ++ [b] ∧
      b.toNat = (s.reg value).toNat ∧ t.inPos = s.inPos ∧
      regsKept [] s t ∧ memoryKept s t ∧ parametersKept s t ∧ advanced s t) ∧
    (255 < (s.reg value).toNat →
      exec (.out value) s = .next { s with run := .faulted (.invalidOutput (s.reg value)) })

/-- R144 with R141: IN delivers the next token, a byte zero-extended and end-of-input as 0xFFFFFFFF, and consumes it; while
no token is available the state stays as it is (a hold: log entry 7). -/
def Obligations.InDeliversTheNextTokenOrHolds : Prop :=
  ∀ (dst : Reg) (s : State),
    (∀ k, s.input[s.inPos]? = some k → ∃ t, exec (.inp dst) s = .next t ∧
      (∀ b, k = .byte b → (t.reg dst).toNat = b.toNat) ∧ (k = .eof → t.reg dst = 0xFFFFFFFF#32) ∧
      t.inPos = s.inPos + 1 ∧ t.out = s.out ∧
      regsKept [dst] s t ∧ memoryKept s t ∧ parametersKept s t ∧ advanced s t) ∧
    (s.input.length ≤ s.inPos → exec (.inp dst) s = .next s)

/-- R141: the hold of IN is lifted by the environment supplying the token, and by that alone; then IN completes with
exactly that token (log entries 7 and 8). -/
def Obligations.SuppliedTokenEndsTheHold : Prop :=
  ∀ (dst : Reg) (s : State) (k : Token), s.inPos = s.input.length →
    exec (.inp dst) s = .next s ∧
    ∃ t, exec (.inp dst) (s.supplyToken k) = .next t ∧ t.reg dst = k.word ∧ t.inPos = s.inPos + 1 ∧
      t.input = s.input ++ [k] ∧ advanced s t

/-- R155: HALT makes the run state `Halted` and changes nothing else; that `pc` stays at the HALT word is decision D11
(log entry 10). -/
def Obligations.HaltChangesOnlyTheRunState : Prop :=
  ∀ s : State, ∃ t, exec .halt s = .next t ∧ t.run = .halted ∧ t.pc = s.pc ∧
    regsKept [] s t ∧ memoryKept s t ∧ consoleKept s t ∧ parametersKept s t

/-! ## Sequences of instructions -/

/-- R52: a read returns the most recent write to its address: SSTORE and then SLOAD through the same registers delivers
the stored value. -/
def Obligations.LoadAfterStoreReturnsTheStoredValue : Prop :=
  ∀ (dst handle offset value : Reg) (s t : State), s.run = .running →
    exec (.sstore handle offset value) s = .next t → t.run = .running →
    ∃ u, exec (.sload dst handle offset) t = .next u ∧ u.reg dst = s.reg value ∧ u.run = .running

/-- R55 (a): a store into segment 0 at the offset after `pc` is the word the very next step fetches; that the spec's own
derivation is what says so makes this a derived statement. -/
def Obligations.StoreIntoProgramIsFetchedNext : Prop :=
  ∀ (handle offset value : Reg) (s t : State), s.run = .running → s.reg handle = 0#32 →
    s.reg offset = s.pc + 1#32 → exec (.sstore handle offset value) s = .next t → t.run = .running →
    t.fetch = .ok (s.reg value)

/-- R55 (c): after LOADP from a handle other than 0 the two segments are independent: a store to either leaves every
word of the other. -/
def Obligations.ProgramCopyIsIndependent : Prop :=
  ∀ (handle target hd off v : Reg) (s t u : State), s.run = .running → s.reg handle ≠ 0#32 →
    exec (.loadp handle target) s = .next t → t.run = .running → exec (.sstore hd off v) t = .next u →
    (t.reg hd = s.reg handle → Memory.seg? u.segs 0#32 = Memory.seg? s.segs (s.reg handle)) ∧
    (t.reg hd = 0#32 → Memory.seg? u.segs (s.reg handle) = Memory.seg? s.segs (s.reg handle))

/-- R50: once a handle is unmapped, every instruction that names it faults: SLOAD, SSTORE and LOADP with `InvalidSegment`,
UNMAP with `InvalidRelease` (conflict C2). The state a fault leaves and what it records are decisions D10 and D9 (log
entry 6). -/
def Obligations.ReleasedHandleFaultsOnEveryUse : Prop :=
  ∀ (handle p q r : Reg) (s t : State), s.run = .running → exec (.unmap handle) s = .next t → t.run = .running →
    (t.reg r = s.reg handle →
      exec (.sload p r q) t = .next { t with run := .faulted (.invalidSegment (s.reg handle)) } ∧
      exec (.sstore r p q) t = .next { t with run := .faulted (.invalidSegment (s.reg handle)) } ∧
      exec (.loadp r p) t = .next { t with run := .faulted (.invalidSegment (s.reg handle)) } ∧
      exec (.unmap r) t = .next { t with run := .faulted (.invalidRelease (s.reg handle)) })

/-- R49, the reference policy: MAP takes the most recently released handle, else the smallest never issued, and UNMAP
puts its handle in front. That fresh handles start at 1 and ascend is decision D7 (log entry 3). -/
def Obligations.ReferencePolicyPicksMostRecentlyReleased : Prop :=
  ∀ (s t : State) (free : List Word) (next : Nat), s.run = .running → t.run = .running →
    s.alloc = .reference free next →
    (∀ dst len, exec (.map dst len) s = .next t →
      (∀ h rest, free = h :: rest → t.reg dst = h ∧ t.alloc = .reference rest next) ∧
      (free = [] → t.reg dst = BitVec.ofNat 32 next ∧ t.alloc = .reference [] (next + 1))) ∧
    (∀ c, exec (.unmap c) s = .next t → t.alloc = .reference (s.reg c :: free) next)

/-- R49: under the reference policy a MAP right after an UNMAP gets the same handle back, now naming a zero-filled
segment. -/
def Obligations.ReferencePolicyReissuesTheReleasedHandle : Prop :=
  ∀ (handle dst len : Reg) (s t : State), s.Inv → s.run = .running → s.alloc.isReference = true →
    exec (.unmap handle) s = .next t → t.run = .running →
    (∀ cap, s.capacity = some cap → Memory.used t.segs + (t.reg len).toNat ≤ cap) →
    ∃ u, exec (.map dst len) t = .next u ∧ u.reg dst = s.reg handle ∧
      Memory.seg? u.segs (s.reg handle) = some (Segment.zeros (t.reg len).toNat)

/-! ## The opcode map -/

/-- R76 under the parameter `OPMAP` of R7 (decision D1): "a different assignment changes no semantic rule". Executing an
instruction neither reads nor changes the map, and under every admissible map the canonical word of an instruction makes
the step that instruction's execution. -/
def Obligations.OpcodeMapChangesNoSemanticRule : Prop :=
  (∀ (i : Instr) (s t : State) (m : OpMap), exec i s = .next t →
    exec i { s with opmap := m } = .next { t with opmap := m }) ∧
  ∀ (s : State) (i : Instr), s.run = .running → OpMap.wf s.opmap = true → i.wf = true →
    Memory.read s.segs 0#32 s.pc = .ok (encodeWith s.opmap i) → step s = exec i s
end

