-- ==== Sys2Proof/Laws/Assoc.lean ====
section
/-!
SUPPORT. Tables with rising keys: reading after setting and erasing, and that both keep the keys rising.
-/

namespace Sys2Proof.Machine

variable {α : Type}

@[simp] theorem assocGet_nil (k : Nat) : assocGet (α := α) k [] = none := rfl

theorem assocGet_cons (k j : Nat) (v : α) (l : List (Nat × α)) :
    assocGet k ((j, v) :: l) = if j = k then some v else assocGet k l := rfl

/-! ## Reading after setting -/

@[simp] theorem assocGet_set_self (k : Nat) (v : α) (l : List (Nat × α)) : assocGet k (assocSet k v l) = some v := by
  induction l with
  | nil => simp [assocSet, assocGet]
  | cons p l ih =>
    obtain ⟨j, u⟩ := p
    simp only [assocSet]
    split
    · simp [assocGet]
    · split
      · simp [assocGet]
      · next hne => simp [assocGet_cons, Ne.symm hne, ih]

theorem assocGet_set_of_ne {k k' : Nat} (v : α) (l : List (Nat × α)) (h : k' ≠ k) :
    assocGet k' (assocSet k v l) = assocGet k' l := by
  induction l with
  | nil => simp [assocSet, assocGet, Ne.symm h]
  | cons p l ih =>
    obtain ⟨j, u⟩ := p
    simp only [assocSet]
    split
    · simp [assocGet, Ne.symm h]
    · split
      · next e => subst e; simp [assocGet, Ne.symm h]
      · simp [assocGet_cons, ih]

theorem assocGet_set (k k' : Nat) (v : α) (l : List (Nat × α)) :
    assocGet k' (assocSet k v l) = if k' = k then some v else assocGet k' l := by
  by_cases h : k' = k
  · subst h; simp
  · simp [h, assocGet_set_of_ne v l h]

/-! ## Reading after erasing -/

theorem assocErase_cons (k j : Nat) (v : α) (l : List (Nat × α)) :
    assocErase k ((j, v) :: l) = if j = k then assocErase k l else (j, v) :: assocErase k l := by
  by_cases h : j = k <;> simp [assocErase, h]

theorem assocGet_erase (k k' : Nat) (l : List (Nat × α)) :
    assocGet k' (assocErase k l) = if k' = k then none else assocGet k' l := by
  induction l with
  | nil => simp [assocErase]
  | cons p l ih =>
    obtain ⟨j, u⟩ := p
    simp only [assocErase] at ih
    by_cases hj : j = k
    · by_cases h : k' = k <;> simp_all [assocErase, assocGet_cons, eq_comm]
    · by_cases h : j = k' <;> simp_all [assocErase, assocGet_cons]

@[simp] theorem assocGet_erase_self (k : Nat) (l : List (Nat × α)) : assocGet k (assocErase k l) = none := by
  simp [assocGet_erase]

theorem assocGet_erase_of_ne {k k' : Nat} (l : List (Nat × α)) (h : k' ≠ k) :
    assocGet k' (assocErase k l) = assocGet k' l := by
  simp [assocGet_erase, h]

/-! ## Membership -/

theorem mem_of_assocGet {k : Nat} {v : α} {l : List (Nat × α)} (h : assocGet k l = some v) : (k, v) ∈ l := by
  induction l with
  | nil => simp at h
  | cons p l ih =>
    obtain ⟨j, u⟩ := p
    by_cases hj : j = k
    · simp_all [assocGet_cons]
    · rw [assocGet_cons, if_neg hj] at h
      exact List.mem_cons_of_mem _ (ih h)

theorem assocGet_isSome_of_mem {k : Nat} {v : α} {l : List (Nat × α)} (h : (k, v) ∈ l) : (assocGet k l).isSome := by
  induction l with
  | nil => simp at h
  | cons p l ih =>
    obtain ⟨j, u⟩ := p
    by_cases hj : j = k
    · simp [assocGet_cons, hj]
    · rw [assocGet_cons, if_neg hj]
      rcases List.mem_cons.mp h with e | e
      · exact absurd (congrArg Prod.fst e).symm hj
      · exact ih e

theorem mem_set {k : Nat} {v : α} {l : List (Nat × α)} {p : Nat × α} (h : p ∈ assocSet k v l) : p = (k, v) ∨ p ∈ l := by
  induction l with
  | nil => simpa [assocSet] using h
  | cons q l ih =>
    obtain ⟨j, u⟩ := q
    simp only [assocSet] at h
    split at h
    · simpa using h
    · split at h
      · rcases List.mem_cons.mp h with e | e
        · exact .inl e
        · exact .inr (List.mem_cons_of_mem _ e)
      · rcases List.mem_cons.mp h with e | e
        · exact .inr (e ▸ List.mem_cons_self)
        · exact (ih e).imp_right (List.mem_cons_of_mem _)

theorem mem_of_mem_erase {k : Nat} {l : List (Nat × α)} {p : Nat × α} (h : p ∈ assocErase k l) : p ∈ l ∧ p.1 ≠ k := by
  simpa [assocErase] using h

/-! ## Rising keys -/

theorem keysRise_iff (l : List (Nat × α)) : keysRise l = true ↔ (l.map Prod.fst).Pairwise (· < ·) := by
  simp [keysRise]

@[simp] theorem keysRise_nil : keysRise (α := α) [] = true := by simp [keysRise]

theorem keysRise_cons (k : Nat) (v : α) (l : List (Nat × α)) :
    keysRise ((k, v) :: l) = true ↔ (∀ p ∈ l, k < p.1) ∧ keysRise l = true := by
  simp [keysRise]

theorem keysRise_set (k : Nat) (v : α) {l : List (Nat × α)} (h : keysRise l = true) : keysRise (assocSet k v l) = true := by
  induction l with
  | nil => simp [assocSet, keysRise]
  | cons q l ih =>
    obtain ⟨j, u⟩ := q
    obtain ⟨hj, hl⟩ := (keysRise_cons j u l).mp h
    simp only [assocSet]
    split
    · next hkj =>
      refine (keysRise_cons _ _ _).mpr ⟨fun p hp => ?_, h⟩
      rcases List.mem_cons.mp hp with e | e
      · exact e ▸ hkj
      · exact lt_trans hkj (hj p e)
    · split
      · next e => exact (keysRise_cons _ _ _).mpr ⟨fun p hp => e ▸ hj p hp, hl⟩
      · next hlt hne =>
        refine (keysRise_cons _ _ _).mpr ⟨fun p hp => ?_, ih hl⟩
        rcases mem_set hp with e | e
        · rw [e]; simp only; omega
        · exact hj p e

theorem keysRise_erase (k : Nat) {l : List (Nat × α)} (h : keysRise l = true) : keysRise (assocErase k l) = true := by
  rw [keysRise_iff] at h ⊢
  exact h.sublist (List.filter_sublist.map _)

/-- In a table whose keys rise, an entry is what its key reads as. -/
theorem assocGet_of_mem {k : Nat} {v : α} {l : List (Nat × α)} (hl : keysRise l = true) (h : (k, v) ∈ l) :
    assocGet k l = some v := by
  induction l with
  | nil => simp at h
  | cons q l ih =>
    obtain ⟨j, u⟩ := q
    obtain ⟨hj, hl'⟩ := (keysRise_cons j u l).mp hl
    rcases List.mem_cons.mp h with e | e
    · cases e; simp [assocGet_cons]
    · have := hj _ e
      simp only at this
      rw [assocGet_cons, if_neg (by omega), ih hl' e]

/-! ## The first gap -/

theorem le_firstGap (k : Nat) (l : List (Nat × α)) : k ≤ firstGap k l := by
  induction l generalizing k with
  | nil => simp [firstGap]
  | cons q l ih =>
    obtain ⟨j, u⟩ := q
    simp only [firstGap]
    split
    · exact le_trans (Nat.le_succ k) (ih (k + 1))
    · exact le_rfl

/-- Every number from `k` up to the first gap is a key, in whatever order the table stands. -/
theorem assocGet_isSome_of_lt_firstGap {k j : Nat} {l : List (Nat × α)} (hj : k ≤ j) (hlt : j < firstGap k l) :
    (assocGet j l).isSome := by
  induction l generalizing k with
  | nil => simp only [firstGap] at hlt; omega
  | cons q l ih =>
    obtain ⟨i, u⟩ := q
    simp only [firstGap] at hlt
    rw [assocGet_cons]
    split at hlt
    · split
      · rfl
      · exact ih (by omega) hlt
    · omega

/-- The first gap is no key, and every number from `k` up to it is one. -/
theorem firstGap_spec (k : Nat) {l : List (Nat × α)} (hl : keysRise l = true) (hk : ∀ p ∈ l, k ≤ p.1) :
    assocGet (firstGap k l) l = none ∧ ∀ j, k ≤ j → j < firstGap k l → (assocGet j l).isSome := by
  induction l generalizing k with
  | nil => simp [firstGap]
  | cons q l ih =>
    obtain ⟨j, u⟩ := q
    obtain ⟨hj, hl'⟩ := (keysRise_cons j u l).mp hl
    simp only [firstGap]
    split
    · next e =>
      subst e
      obtain ⟨h1, h2⟩ := ih (j + 1) hl' (fun p hp => hj p hp)
      have hge := le_firstGap (j + 1) l
      refine ⟨by rw [assocGet_cons, if_neg (by omega)]; exact h1, fun i hi hlt => ?_⟩
      rw [assocGet_cons]
      split
      · rfl
      · exact h2 i (by omega) hlt
    · next hne =>
      have hkj : k < j := by
        have : k ≤ j := hk (j, u) List.mem_cons_self
        omega
      refine ⟨?_, fun i hi hlt => by omega⟩
      rw [assocGet_cons, if_neg hne]
      by_contra hsome
      obtain ⟨v, hv⟩ := Option.ne_none_iff_exists'.mp hsome
      have := hj _ (mem_of_assocGet hv)
      simp only at this
      omega

end Sys2Proof.Machine
end

