-- ==== Sys2Proof/Laws/Codec.lean ====
section
/-!
SUPPORT. Admissible opcode maps, the fields of a word, and the opcode of each encoding format.
-/

namespace Sys2Proof

theorem Op.mem_all (o : Op) : o ∈ Op.all := by cases o <;> decide

theorem OpMap.wf_iff (m : OpMap) : OpMap.wf m = true ↔ m.length = 14 ∧ (∀ o : Op, o ∈ m) ∧ m[7]? = some .halt := by
  simp only [OpMap.wf, OpMap.hasFourteenRows, OpMap.namesEveryOp, OpMap.haltIsSeven, Bool.and_eq_true, beq_iff_eq,
    List.all_eq_true, List.contains_iff_mem, and_assoc]
  constructor
  · rintro ⟨h1, h2, h3⟩
    exact ⟨h1, fun o => h2 o (Op.mem_all o), h3⟩
  · rintro ⟨h1, h2, h3⟩
    exact ⟨h1, fun o _ => h2 o, h3⟩

theorem Config.opmap_wf : OpMap.wf Config.opmap = true := by decide

/-- An admissible map numbers the operations 0 to 13 (R2). -/
theorem opcodeOf_lt {m : OpMap} (hm : OpMap.wf m = true) (o : Op) : opcodeOf m o < 14 := by
  obtain ⟨h1, h2, -⟩ := (OpMap.wf_iff m).mp hm
  have := List.idxOf_lt_length_of_mem (h2 o)
  unfold opcodeOf
  omega

/-- The operation an admissible map gives an operation's own number is that operation. -/
theorem getElem?_opcodeOf {m : OpMap} (hm : OpMap.wf m = true) (o : Op) : m[opcodeOf m o]? = some o := by
  obtain ⟨-, h2, -⟩ := (OpMap.wf_iff m).mp hm
  exact List.getElem?_idxOf (h2 o)

theorem bits_lt (w : Word) (hi lo : Nat) : bits w hi lo < 2 ^ (hi - lo + 1) := Nat.mod_lt _ (Nat.two_pow_pos _)

theorem opcodeField_lt (w : Word) : opcodeField w < 16 := bits_lt w 31 28

/-! ## The opcode of each format's canonical word -/

theorem opcodeField_encABC {op : Nat} (h : op < 16) (a b c : Reg) : opcodeField (encABC op a b c) = op := by
  simp only [opcodeField, bits, encABC, BitVec.toNat_ofNat]
  omega

theorem opcodeField_encBC {op : Nat} (h : op < 16) (b c : Reg) : opcodeField (encBC op b c) = op := by
  simp only [opcodeField, bits, encBC, BitVec.toNat_ofNat]
  omega

theorem opcodeField_encC {op : Nat} (h : op < 16) (c : Reg) : opcodeField (encC op c) = op := by
  simp only [opcodeField, bits, encC, BitVec.toNat_ofNat]
  omega

theorem opcodeField_encNone {op : Nat} (h : op < 16) : opcodeField (encNone op) = op := by
  simp only [opcodeField, bits, encNone, BitVec.toNat_ofNat]
  omega

theorem opcodeField_encLit {op : Nat} (h : op < 16) (a : Reg) {imm : Word} (hi : imm.toNat < 33554432) :
    opcodeField (encLit op a imm) = op := by
  simp only [opcodeField, bits, encLit, BitVec.toNat_ofNat]
  omega

end Sys2Proof
end

