-- ==== Sys2Proof/Laws/Memory.lean ====
section
/-!
SUPPORT. The laws of segments and of the segment table: a read after a write, that a write leaves every other word
alone, that every memory operation keeps the canonical form, and the accounting of used words.
-/

namespace Sys2Proof.Machine

/-! ## One segment -/

@[simp] theorem Segment.write_len (g : Segment) (o : Nat) (v : Word) : (g.write o v).len = g.len := rfl

@[simp] theorem Segment.zeros_len (n : Nat) : (Segment.zeros n).len = n := rfl

@[simp] theorem Segment.zeros_read (n o : Nat) : (Segment.zeros n).read o = 0#32 := rfl

@[simp] theorem Segment.ofWords_len (ws : List Word) : (Segment.ofWords ws).len = ws.length := rfl

theorem Segment.read_write (g : Segment) (o o' : Nat) (v : Word) :
    (g.write o v).read o' = if o' = o then v else g.read o' := by
  by_cases hv : v = 0#32
  · subst hv
    by_cases h : o' = o <;> simp [Segment.read, Segment.write, assocGet_erase, h]
  · by_cases h : o' = o <;> simp [Segment.read, Segment.write, assocGet_set, hv, h]

theorem assocGet_listedWords (k i : Nat) (ws : List Word) :
    (assocGet i (listedWords k ws)).getD 0#32 = if k ≤ i then ws.getD (i - k) 0#32 else 0#32 := by
  induction ws generalizing k with
  | nil => simp [listedWords]
  | cons w ws ih =>
    simp only [listedWords]
    by_cases hk : k = i
    · subst hk
      by_cases hw : w = 0#32
      · simp [hw, ih]
      · simp [hw, assocGet_cons]
    · by_cases hle : k ≤ i
      · obtain ⟨n, rfl⟩ : ∃ n, i = k + 1 + n := ⟨i - (k + 1), by omega⟩
        have h1 : k + 1 + n - k = n + 1 := by omega
        by_cases hw : w = 0#32
        · rw [if_pos hw, ih, if_pos (by omega), if_pos hle, h1]
          simp
        · rw [if_neg hw, assocGet_cons, if_neg (by omega), ih, if_pos (by omega), if_pos hle, h1]
          simp
      · by_cases hw : w = 0#32
        · rw [if_pos hw, ih, if_neg (by omega), if_neg hle]
        · rw [if_neg hw, assocGet_cons, if_neg (by omega), ih, if_neg (by omega), if_neg hle]

/-- Word i of the image is word i of segment 0 (R202). -/
theorem Segment.ofWords_read (ws : List Word) (i : Nat) : (Segment.ofWords ws).read i = ws.getD i 0#32 := by
  simp [Segment.read, Segment.ofWords, assocGet_listedWords]

theorem listedWords_mem {k : Nat} {ws : List Word} {p : Nat × Word} (h : p ∈ listedWords k ws) :
    k ≤ p.1 ∧ p.1 < k + ws.length ∧ p.2 ≠ 0#32 := by
  induction ws generalizing k with
  | nil => simp [listedWords] at h
  | cons w ws ih =>
    simp only [listedWords] at h
    split at h
    · have := ih h
      simp only [List.length_cons]
      exact ⟨by omega, by omega, this.2.2⟩
    · next hw =>
      rcases List.mem_cons.mp h with e | e
      · subst e
        simp [hw]
      · have := ih e
        simp only [List.length_cons]
        exact ⟨by omega, by omega, this.2.2⟩

theorem keysRise_listedWords (k : Nat) (ws : List Word) : keysRise (listedWords k ws) = true := by
  induction ws generalizing k with
  | nil => simp [listedWords]
  | cons w ws ih =>
    simp only [listedWords]
    split
    · exact ih (k + 1)
    · refine (keysRise_cons _ _ _).mpr ⟨fun p hp => ?_, ih (k + 1)⟩
      have := listedWords_mem hp
      omega

theorem Segment.wf_iff (g : Segment) :
    g.wf = true ↔ keysRise g.words = true ∧ (∀ p ∈ g.words, p.1 < g.len ∧ p.2 ≠ 0#32) ∧ g.len ≤ Config.maxSegmentWords := by
  simp only [Segment.wf, Bool.and_eq_true, List.all_eq_true, decide_eq_true_eq, and_assoc]

theorem Segment.wf_write {g : Segment} {o : Nat} (v : Word) (hg : g.wf = true) (ho : o < g.len) :
    (g.write o v).wf = true := by
  obtain ⟨h1, h2, h3⟩ := (Segment.wf_iff g).mp hg
  refine (Segment.wf_iff _).mpr ⟨?_, fun p hp => ?_, h3⟩
  · simp only [Segment.write]
    split
    · exact keysRise_erase o h1
    · exact keysRise_set o v h1
  · simp only [Segment.write] at hp ⊢
    split at hp
    · exact h2 p (mem_of_mem_erase hp).1
    · next hv =>
      rcases mem_set hp with e | e
      · subst e; exact ⟨ho, hv⟩
      · exact h2 p e

theorem Segment.wf_zeros {n : Nat} (h : n ≤ Config.maxSegmentWords) : (Segment.zeros n).wf = true :=
  (Segment.wf_iff _).mpr ⟨by simp [Segment.zeros], by simp [Segment.zeros], h⟩

theorem Segment.wf_ofWords {ws : List Word} (h : ws.length ≤ Config.maxSegmentWords) : (Segment.ofWords ws).wf = true := by
  refine (Segment.wf_iff _).mpr ⟨keysRise_listedWords 0 ws, fun p hp => ?_, h⟩
  have := listedWords_mem hp
  exact ⟨by simpa using this.2.1, this.2.2⟩

/-! ## Lookup in the table -/

theorem toNat_eq_iff (a b : Word) : a.toNat = b.toNat ↔ a = b := BitVec.toNat_inj

theorem Memory.seg?_set (m : Memory) (h h' : Word) (g : Segment) :
    Memory.seg? (assocSet h.toNat g m) h' = if h' = h then some g else Memory.seg? m h' := by
  simp [Memory.seg?, assocGet_set, BitVec.toNat_inj]

theorem Memory.seg?_set_zero (m : Memory) (h' : Word) (g : Segment) :
    Memory.seg? (assocSet 0 g m) h' = if h' = 0#32 then some g else Memory.seg? m h' :=
  Memory.seg?_set m 0#32 h' g

theorem Memory.seg?_erase (m : Memory) (h h' : Word) :
    Memory.seg? (assocErase h.toNat m) h' = if h' = h then none else Memory.seg? m h' := by
  simp [Memory.seg?, assocGet_erase, BitVec.toNat_inj]

theorem Memory.mapped_set (m : Memory) (h h' : Word) (g : Segment) :
    Memory.mapped (assocSet h.toNat g m) h' = (decide (h' = h) || Memory.mapped m h') := by
  by_cases e : h' = h <;> simp [Memory.mapped, Memory.seg?_set, e]

theorem Memory.mapped_set_zero (m : Memory) (h' : Word) (g : Segment) :
    Memory.mapped (assocSet 0 g m) h' = (decide (h' = 0#32) || Memory.mapped m h') :=
  Memory.mapped_set m 0#32 h' g

theorem Memory.mapped_erase (m : Memory) (h h' : Word) :
    Memory.mapped (assocErase h.toNat m) h' = (decide (h' ≠ h) && Memory.mapped m h') := by
  by_cases e : h' = h <;> simp [Memory.mapped, Memory.seg?_erase, e]

theorem Memory.mapped_iff (m : Memory) (h : Word) : Memory.mapped m h = true ↔ ∃ g, Memory.seg? m h = some g := by
  simp [Memory.mapped, Option.isSome_iff_exists]

theorem Memory.mapped_eq_false_iff (m : Memory) (h : Word) : Memory.mapped m h = false ↔ Memory.seg? m h = none := by
  simp [Memory.mapped]

theorem Memory.mapped_of_seg? {m : Memory} {h : Word} {g : Segment} (e : Memory.seg? m h = some g) :
    Memory.mapped m h = true := by simp [Memory.mapped, e]

/-! ## Reads and writes -/

/-- Everything a read that succeeds says (R44). -/
theorem Memory.read_ok_iff (m : Memory) (h o v : Word) :
    Memory.read m h o = .ok v ↔ ∃ g, Memory.seg? m h = some g ∧ o.toNat < g.len ∧ v = g.read o.toNat := by
  unfold Memory.read
  cases e : Memory.seg? m h with
  | none => simp
  | some g =>
    by_cases hlt : o.toNat < g.len
    · simp only [if_neg (Nat.not_le_of_lt hlt), Except.ok.injEq, Option.some.injEq, exists_eq_left', hlt, true_and]
      exact eq_comm
    · simp [hlt, Nat.le_of_not_lt hlt]

theorem Memory.read_of_unmapped {m : Memory} {h : Word} (o : Word) (e : Memory.seg? m h = none) :
    Memory.read m h o = .error (.invalidSegment h) := by simp [Memory.read, e]

theorem Memory.read_of_ge {m : Memory} {h o : Word} {g : Segment} (e : Memory.seg? m h = some g) (ho : g.len ≤ o.toNat) :
    Memory.read m h o = .error (.segmentOutOfBounds h o) := by simp [Memory.read, e, ho]

theorem Memory.read_of_lt {m : Memory} {h o : Word} {g : Segment} (e : Memory.seg? m h = some g) (ho : o.toNat < g.len) :
    Memory.read m h o = .ok (g.read o.toNat) := (Memory.read_ok_iff m h o _).mpr ⟨g, e, ho, rfl⟩

/-- Everything a write that succeeds says (R45). -/
theorem Memory.write_ok_iff (m : Memory) (h o v : Word) (m' : Memory) :
    Memory.write m h o v = .ok m' ↔
      ∃ g, Memory.seg? m h = some g ∧ o.toNat < g.len ∧ m' = assocSet h.toNat (g.write o.toNat v) m := by
  unfold Memory.write
  cases e : Memory.seg? m h with
  | none => simp
  | some g =>
    by_cases hlt : o.toNat < g.len
    · simp only [if_neg (Nat.not_le_of_lt hlt), Except.ok.injEq, Option.some.injEq, exists_eq_left', hlt, true_and]
      exact eq_comm
    · simp [hlt, Nat.le_of_not_lt hlt]

theorem Memory.write_of_lt {m : Memory} {h o : Word} {g : Segment} (v : Word) (e : Memory.seg? m h = some g)
    (ho : o.toNat < g.len) : Memory.write m h o v = .ok (assocSet h.toNat (g.write o.toNat v) m) :=
  (Memory.write_ok_iff m h o v _).mpr ⟨g, e, ho, rfl⟩

/-- The checks of a write are those of a read (R45). -/
theorem Memory.write_error_iff (m : Memory) (h o v : Word) (c : Cause) :
    Memory.write m h o v = .error c ↔ Memory.read m h o = .error c := by
  unfold Memory.write Memory.read
  cases Memory.seg? m h with
  | none => simp
  | some g => by_cases hlt : g.len ≤ o.toNat <;> simp [hlt]

/-- A write changes the one word it addresses and no other (R45). -/
theorem Memory.read_after_write {m m' : Memory} {h o v : Word} (hw : Memory.write m h o v = .ok m') (h' o' : Word) :
    Memory.read m' h' o' = if h' = h ∧ o' = o then .ok v else Memory.read m h' o' := by
  obtain ⟨g, hg, ho, rfl⟩ := (Memory.write_ok_iff m h o v m').mp hw
  by_cases hh : h' = h
  · subst hh
    have e : Memory.seg? (assocSet h'.toNat (g.write o.toNat v) m) h' = some (g.write o.toNat v) := by
      simp [Memory.seg?_set]
    by_cases hlt : o'.toNat < g.len
    · rw [Memory.read_of_lt e (by simpa using hlt), Segment.read_write]
      by_cases hoo : o' = o
      · simp [hoo]
      · have : o'.toNat ≠ o.toNat := fun c => hoo (BitVec.eq_of_toNat_eq c)
        simp [hoo, this, Memory.read_of_lt hg hlt]
    · have hge : g.len ≤ o'.toNat := Nat.le_of_not_lt hlt
      have hoo : ¬ o' = o := fun c => by subst c; omega
      rw [Memory.read_of_ge e (by simpa using hge), Memory.read_of_ge hg hge]
      simp [hoo]
  · have e : Memory.seg? (assocSet h.toNat (g.write o.toNat v) m) h' = Memory.seg? m h' := by
      simp [Memory.seg?_set, hh]
    simp [Memory.read, e, hh]

theorem Memory.lengthAt_set (m : Memory) (h h' : Word) (g : Segment) :
    Memory.lengthAt (assocSet h.toNat g m) h' = if h' = h then some g.len else Memory.lengthAt m h' := by
  by_cases e : h' = h <;> simp [Memory.lengthAt, Memory.seg?_set, e]

/-- A write changes no length and maps nothing (R45). -/
theorem Memory.lengthAt_after_write {m m' : Memory} {h o v : Word} (hw : Memory.write m h o v = .ok m') (h' : Word) :
    Memory.lengthAt m' h' = Memory.lengthAt m h' := by
  obtain ⟨g, hg, _, rfl⟩ := (Memory.write_ok_iff m h o v m').mp hw
  rw [Memory.lengthAt_set]
  split
  · next e => subst e; simp [Memory.lengthAt, hg]
  · rfl

theorem Memory.mapped_eq_lengthAt (m : Memory) (h : Word) : Memory.mapped m h = (Memory.lengthAt m h).isSome := by
  simp [Memory.mapped, Memory.lengthAt]

/-! ## The canonical form -/

theorem Memory.wf_iff (m : Memory) :
    Memory.wf m = true ↔ keysRise m = true ∧ ∀ p ∈ m, p.1 < Config.handleCount ∧ p.2.wf = true := by
  simp only [Memory.wf, Bool.and_eq_true, List.all_eq_true, decide_eq_true_eq]

theorem Memory.wf_set {m : Memory} {g : Segment} (h : Word) (hm : Memory.wf m = true) (hg : g.wf = true) :
    Memory.wf (assocSet h.toNat g m) = true := by
  obtain ⟨h1, h2⟩ := (Memory.wf_iff m).mp hm
  refine (Memory.wf_iff _).mpr ⟨keysRise_set _ _ h1, fun p hp => ?_⟩
  rcases mem_set hp with e | e
  · subst e; exact ⟨h.isLt, hg⟩
  · exact h2 p e

theorem Memory.wf_erase {m : Memory} (k : Nat) (hm : Memory.wf m = true) : Memory.wf (assocErase k m) = true := by
  obtain ⟨h1, h2⟩ := (Memory.wf_iff m).mp hm
  exact (Memory.wf_iff _).mpr ⟨keysRise_erase _ h1, fun p hp => h2 p (mem_of_mem_erase hp).1⟩

theorem Memory.seg_wf {m : Memory} {h : Word} {g : Segment} (hm : Memory.wf m = true) (hg : Memory.seg? m h = some g) :
    g.wf = true := (((Memory.wf_iff m).mp hm).2 _ (mem_of_assocGet hg)).2

theorem Memory.wf_write {m m' : Memory} {h o v : Word} (hm : Memory.wf m = true) (hw : Memory.write m h o v = .ok m') :
    Memory.wf m' = true := by
  obtain ⟨g, hg, ho, rfl⟩ := (Memory.write_ok_iff m h o v m').mp hw
  exact Memory.wf_set h hm (Segment.wf_write v (Memory.seg_wf hm hg) ho)

/-- Segment lengths are 32-bit numbers, so `pc = 0xFFFFFFFF` is out of bounds (R25). -/
theorem Memory.seg_len_le {m : Memory} {h : Word} {g : Segment} (hm : Memory.wf m = true)
    (hg : Memory.seg? m h = some g) : g.len ≤ Config.maxSegmentWords :=
  ((Segment.wf_iff g).mp (Memory.seg_wf hm hg)).2.2

theorem State.reset_memory_wf : Memory.wf State.reset.segs = true := by decide

/-! ## Used words -/

@[simp] theorem Memory.used_nil : Memory.used [] = 0 := rfl

theorem Memory.used_cons (k : Nat) (g : Segment) (m : Memory) : Memory.used ((k, g) :: m) = g.len + Memory.used m := by
  simp [Memory.used]

theorem Memory.used_erase_le (k : Nat) (m : Memory) : Memory.used (assocErase k m) ≤ Memory.used m := by
  induction m with
  | nil => simp [assocErase]
  | cons q m ih =>
    obtain ⟨j, g⟩ := q
    rw [assocErase_cons, Memory.used_cons]
    split
    · omega
    · rw [Memory.used_cons]; omega

/-- Setting an entry adds its length and takes the old one's away. -/
theorem Memory.used_set (k : Nat) (g : Segment) {m : Memory} (hm : keysRise m = true) :
    Memory.used (assocSet k g m) + ((assocGet k m).map Segment.len).getD 0 = Memory.used m + g.len := by
  induction m with
  | nil => simp [assocSet, Memory.used]
  | cons q m ih =>
    obtain ⟨j, u⟩ := q
    obtain ⟨hj, hl⟩ := (keysRise_cons j u m).mp hm
    simp only [assocSet]
    split
    · next hlt =>
      have : assocGet k ((j, u) :: m) = none := by
        by_contra hs
        obtain ⟨v, hv⟩ := Option.ne_none_iff_exists'.mp hs
        rcases List.mem_cons.mp (mem_of_assocGet hv) with e | e
        · cases e; omega
        · have := hj _ e; simp only at this; omega
      simp only [this, Memory.used_cons, Option.map_none, Option.getD_none]
      omega
    · split
      · next e =>
        subst e
        simp only [assocGet_cons, if_true, Memory.used_cons, Option.map_some, Option.getD_some]
        omega
      · next hne =>
        rw [assocGet_cons, if_neg (Ne.symm hne), Memory.used_cons, Memory.used_cons]
        have := ih hl
        omega

theorem Memory.len_le_used {k : Nat} {g : Segment} {m : Memory} (h : assocGet k m = some g) : g.len ≤ Memory.used m := by
  induction m with
  | nil => simp at h
  | cons q m ih =>
    obtain ⟨j, u⟩ := q
    rw [assocGet_cons] at h
    rw [Memory.used_cons]
    split at h
    · cases h; omega
    · have := ih h; omega

theorem Memory.used_write {m m' : Memory} {h o v : Word} (hm : Memory.wf m = true)
    (hw : Memory.write m h o v = .ok m') : Memory.used m' = Memory.used m := by
  obtain ⟨g, hg, _, rfl⟩ := (Memory.write_ok_iff m h o v m').mp hw
  have := Memory.used_set h.toNat (g.write o.toNat v) ((Memory.wf_iff m).mp hm).1
  simp only [Memory.seg?] at hg
  simp only [hg, Option.map_some, Option.getD_some, Segment.write_len] at this
  omega

/-! ## Handles -/

theorem Memory.lowestUnmapped_spec {m : Memory} (hm : Memory.wf m = true) :
    1 ≤ Memory.lowestUnmapped m ∧ assocGet (Memory.lowestUnmapped m) m = none ∧
      ∀ j, 1 ≤ j → j < Memory.lowestUnmapped m → (assocGet j m).isSome := by
  have hr := ((Memory.wf_iff m).mp hm).1
  have h1 : 1 ≤ Memory.lowestUnmapped m := le_firstGap 1 _
  obtain ⟨h2, h3⟩ := firstGap_spec 1 (keysRise_erase 0 hr)
    (fun p hp => Nat.one_le_iff_ne_zero.mpr (mem_of_mem_erase hp).2)
  have hgap : assocGet (Memory.lowestUnmapped m) (assocErase 0 m) = none := h2
  refine ⟨h1, ?_, fun j hj hlt => ?_⟩
  · rw [assocGet_erase_of_ne _ (show Memory.lowestUnmapped m ≠ 0 by omega)] at hgap
    exact hgap
  · have h := h3 j hj hlt
    rwa [assocGet_erase_of_ne _ (show j ≠ 0 by omega)] at h

/-- Where the second check of `Alloc` fails, every handle but 0 is mapped, in whatever order the table stands (R47). -/
theorem Memory.mapped_of_noHandleLeft {m : Memory} {u : Word} (hl : Memory.handleLeft m = false) (hu : u ≠ 0#32) :
    Memory.mapped m u = true := by
  have hge : Config.handleCount ≤ firstGap 1 (assocErase 0 m) := Nat.le_of_not_lt (of_decide_eq_false hl)
  have hne : u.toNat ≠ 0 := fun e => hu (BitVec.eq_of_toNat_eq e)
  have hb : u.toNat < Config.handleCount := u.isLt
  have h := assocGet_isSome_of_lt_firstGap (l := assocErase 0 m) (show 1 ≤ u.toNat by omega) (by omega)
  rwa [assocGet_erase_of_ne _ hne] at h

/-- `handleLeft` is the second check of `Alloc`: some handle other than 0 is unmapped (R47). -/
theorem Memory.handleLeft_iff {m : Memory} (hm : Memory.wf m = true) :
    Memory.handleLeft m = true ↔ ∃ h : Word, h ≠ 0#32 ∧ Memory.mapped m h = false := by
  obtain ⟨h1, h2, h3⟩ := Memory.lowestUnmapped_spec hm
  simp only [Memory.handleLeft, decide_eq_true_eq]
  constructor
  · intro hlt
    have hn : (BitVec.ofNat 32 (Memory.lowestUnmapped m)).toNat = Memory.lowestUnmapped m := by
      simpa [Config.handleCount] using hlt
    refine ⟨BitVec.ofNat 32 (Memory.lowestUnmapped m), fun e => ?_, ?_⟩
    · rw [e] at hn; simp at hn; omega
    · rw [Memory.mapped_eq_false_iff, Memory.seg?, hn]; exact h2
  · rintro ⟨h, h0, hf⟩
    by_contra hge
    have hne : h.toNat ≠ 0 := fun e => h0 (BitVec.eq_of_toNat_eq (by simpa using e))
    have hb : h.toNat < Config.handleCount := h.isLt
    have := h3 h.toNat (by omega) (by omega)
    rw [Memory.mapped_eq_false_iff, Memory.seg?] at hf
    simp [hf] at this

end Sys2Proof.Machine
end

