-- ==== Sys2Proof/Laws/State.lean ====
section
/-!
SUPPORT. One lemma per field of `State` per update: what each update leaves and what it writes; and reading a
register after each update. Later proofs cite these and never unfold a record update.
-/

namespace Sys2Proof.Machine

/-! ## setReg -/

@[simp] theorem State.setReg_x (s : State) (i : Reg) (v : Word) : (s.setReg i v).x = s.x.set i v := rfl

@[simp] theorem State.setReg_pc (s : State) (i : Reg) (v : Word) : (s.setReg i v).pc = s.pc := rfl

@[simp] theorem State.setReg_run (s : State) (i : Reg) (v : Word) : (s.setReg i v).run = s.run := rfl

@[simp] theorem State.setReg_segs (s : State) (i : Reg) (v : Word) : (s.setReg i v).segs = s.segs := rfl

@[simp] theorem State.setReg_alloc (s : State) (i : Reg) (v : Word) : (s.setReg i v).alloc = s.alloc := rfl

@[simp] theorem State.setReg_inPos (s : State) (i : Reg) (v : Word) : (s.setReg i v).inPos = s.inPos := rfl

@[simp] theorem State.setReg_out (s : State) (i : Reg) (v : Word) : (s.setReg i v).out = s.out := rfl

@[simp] theorem State.setReg_input (s : State) (i : Reg) (v : Word) : (s.setReg i v).input = s.input := rfl

@[simp] theorem State.setReg_capacity (s : State) (i : Reg) (v : Word) : (s.setReg i v).capacity = s.capacity := rfl

@[simp] theorem State.setReg_opmap (s : State) (i : Reg) (v : Word) : (s.setReg i v).opmap = s.opmap := rfl

@[simp] theorem State.setReg_reg_self (s : State) (i : Reg) (v : Word) : (s.setReg i v).reg i = v := by
  simp [State.reg, State.setReg]

theorem State.setReg_reg_of_ne (s : State) {i j : Reg} (v : Word) (h : j ≠ i) : (s.setReg i v).reg j = s.reg j := by
  have h' : i.val ≠ j.val := fun e => h (Fin.ext e.symm)
  simp [State.reg, State.setReg, h']

theorem State.setReg_reg (s : State) (i j : Reg) (v : Word) :
    (s.setReg i v).reg j = if j = i then v else s.reg j := by
  by_cases h : j = i
  · simp [h]
  · simp [h, State.setReg_reg_of_ne s v h]

/-! ## setPc -/

@[simp] theorem State.setPc_x (s : State) (t : Word) : (s.setPc t).x = s.x := rfl

@[simp] theorem State.setPc_pc (s : State) (t : Word) : (s.setPc t).pc = t := rfl

@[simp] theorem State.setPc_run (s : State) (t : Word) : (s.setPc t).run = s.run := rfl

@[simp] theorem State.setPc_segs (s : State) (t : Word) : (s.setPc t).segs = s.segs := rfl

@[simp] theorem State.setPc_alloc (s : State) (t : Word) : (s.setPc t).alloc = s.alloc := rfl

@[simp] theorem State.setPc_inPos (s : State) (t : Word) : (s.setPc t).inPos = s.inPos := rfl

@[simp] theorem State.setPc_out (s : State) (t : Word) : (s.setPc t).out = s.out := rfl

@[simp] theorem State.setPc_input (s : State) (t : Word) : (s.setPc t).input = s.input := rfl

@[simp] theorem State.setPc_capacity (s : State) (t : Word) : (s.setPc t).capacity = s.capacity := rfl

@[simp] theorem State.setPc_opmap (s : State) (t : Word) : (s.setPc t).opmap = s.opmap := rfl

@[simp] theorem State.setPc_reg (s : State) (t : Word) (j : Reg) : (s.setPc t).reg j = s.reg j := rfl

/-! ## advance -/

@[simp] theorem State.advance_x (s : State) : (s.advance).x = s.x := rfl

@[simp] theorem State.advance_pc (s : State) : (s.advance).pc = s.pc + 1#32 := rfl

@[simp] theorem State.advance_run (s : State) : (s.advance).run = s.run := rfl

@[simp] theorem State.advance_segs (s : State) : (s.advance).segs = s.segs := rfl

@[simp] theorem State.advance_alloc (s : State) : (s.advance).alloc = s.alloc := rfl

@[simp] theorem State.advance_inPos (s : State) : (s.advance).inPos = s.inPos := rfl

@[simp] theorem State.advance_out (s : State) : (s.advance).out = s.out := rfl

@[simp] theorem State.advance_input (s : State) : (s.advance).input = s.input := rfl

@[simp] theorem State.advance_capacity (s : State) : (s.advance).capacity = s.capacity := rfl

@[simp] theorem State.advance_opmap (s : State) : (s.advance).opmap = s.opmap := rfl

@[simp] theorem State.advance_reg (s : State) (j : Reg) : (s.advance).reg j = s.reg j := rfl

/-! ## setRun -/

@[simp] theorem State.setRun_x (s : State) (r : RunState) : (s.setRun r).x = s.x := rfl

@[simp] theorem State.setRun_pc (s : State) (r : RunState) : (s.setRun r).pc = s.pc := rfl

@[simp] theorem State.setRun_run (s : State) (r : RunState) : (s.setRun r).run = r := rfl

@[simp] theorem State.setRun_segs (s : State) (r : RunState) : (s.setRun r).segs = s.segs := rfl

@[simp] theorem State.setRun_alloc (s : State) (r : RunState) : (s.setRun r).alloc = s.alloc := rfl

@[simp] theorem State.setRun_inPos (s : State) (r : RunState) : (s.setRun r).inPos = s.inPos := rfl

@[simp] theorem State.setRun_out (s : State) (r : RunState) : (s.setRun r).out = s.out := rfl

@[simp] theorem State.setRun_input (s : State) (r : RunState) : (s.setRun r).input = s.input := rfl

@[simp] theorem State.setRun_capacity (s : State) (r : RunState) : (s.setRun r).capacity = s.capacity := rfl

@[simp] theorem State.setRun_opmap (s : State) (r : RunState) : (s.setRun r).opmap = s.opmap := rfl

@[simp] theorem State.setRun_reg (s : State) (r : RunState) (j : Reg) : (s.setRun r).reg j = s.reg j := rfl

/-! ## setSegs -/

@[simp] theorem State.setSegs_x (s : State) (m : Memory) : (s.setSegs m).x = s.x := rfl

@[simp] theorem State.setSegs_pc (s : State) (m : Memory) : (s.setSegs m).pc = s.pc := rfl

@[simp] theorem State.setSegs_run (s : State) (m : Memory) : (s.setSegs m).run = s.run := rfl

@[simp] theorem State.setSegs_segs (s : State) (m : Memory) : (s.setSegs m).segs = m := rfl

@[simp] theorem State.setSegs_alloc (s : State) (m : Memory) : (s.setSegs m).alloc = s.alloc := rfl

@[simp] theorem State.setSegs_inPos (s : State) (m : Memory) : (s.setSegs m).inPos = s.inPos := rfl

@[simp] theorem State.setSegs_out (s : State) (m : Memory) : (s.setSegs m).out = s.out := rfl

@[simp] theorem State.setSegs_input (s : State) (m : Memory) : (s.setSegs m).input = s.input := rfl

@[simp] theorem State.setSegs_capacity (s : State) (m : Memory) : (s.setSegs m).capacity = s.capacity := rfl

@[simp] theorem State.setSegs_opmap (s : State) (m : Memory) : (s.setSegs m).opmap = s.opmap := rfl

@[simp] theorem State.setSegs_reg (s : State) (m : Memory) (j : Reg) : (s.setSegs m).reg j = s.reg j := rfl

/-! ## setAlloc -/

@[simp] theorem State.setAlloc_x (s : State) (a : Alloc) : (s.setAlloc a).x = s.x := rfl

@[simp] theorem State.setAlloc_pc (s : State) (a : Alloc) : (s.setAlloc a).pc = s.pc := rfl

@[simp] theorem State.setAlloc_run (s : State) (a : Alloc) : (s.setAlloc a).run = s.run := rfl

@[simp] theorem State.setAlloc_segs (s : State) (a : Alloc) : (s.setAlloc a).segs = s.segs := rfl

@[simp] theorem State.setAlloc_alloc (s : State) (a : Alloc) : (s.setAlloc a).alloc = a := rfl

@[simp] theorem State.setAlloc_inPos (s : State) (a : Alloc) : (s.setAlloc a).inPos = s.inPos := rfl

@[simp] theorem State.setAlloc_out (s : State) (a : Alloc) : (s.setAlloc a).out = s.out := rfl

@[simp] theorem State.setAlloc_input (s : State) (a : Alloc) : (s.setAlloc a).input = s.input := rfl

@[simp] theorem State.setAlloc_capacity (s : State) (a : Alloc) : (s.setAlloc a).capacity = s.capacity := rfl

@[simp] theorem State.setAlloc_opmap (s : State) (a : Alloc) : (s.setAlloc a).opmap = s.opmap := rfl

@[simp] theorem State.setAlloc_reg (s : State) (a : Alloc) (j : Reg) : (s.setAlloc a).reg j = s.reg j := rfl

/-! ## consumeToken -/

@[simp] theorem State.consumeToken_x (s : State) : (s.consumeToken).x = s.x := rfl

@[simp] theorem State.consumeToken_pc (s : State) : (s.consumeToken).pc = s.pc := rfl

@[simp] theorem State.consumeToken_run (s : State) : (s.consumeToken).run = s.run := rfl

@[simp] theorem State.consumeToken_segs (s : State) : (s.consumeToken).segs = s.segs := rfl

@[simp] theorem State.consumeToken_alloc (s : State) : (s.consumeToken).alloc = s.alloc := rfl

@[simp] theorem State.consumeToken_inPos (s : State) : (s.consumeToken).inPos = s.inPos + 1 := rfl

@[simp] theorem State.consumeToken_out (s : State) : (s.consumeToken).out = s.out := rfl

@[simp] theorem State.consumeToken_input (s : State) : (s.consumeToken).input = s.input := rfl

@[simp] theorem State.consumeToken_capacity (s : State) : (s.consumeToken).capacity = s.capacity := rfl

@[simp] theorem State.consumeToken_opmap (s : State) : (s.consumeToken).opmap = s.opmap := rfl

@[simp] theorem State.consumeToken_reg (s : State) (j : Reg) : (s.consumeToken).reg j = s.reg j := rfl

/-! ## emit -/

@[simp] theorem State.emit_x (s : State) (b : Byte) : (s.emit b).x = s.x := rfl

@[simp] theorem State.emit_pc (s : State) (b : Byte) : (s.emit b).pc = s.pc := rfl

@[simp] theorem State.emit_run (s : State) (b : Byte) : (s.emit b).run = s.run := rfl

@[simp] theorem State.emit_segs (s : State) (b : Byte) : (s.emit b).segs = s.segs := rfl

@[simp] theorem State.emit_alloc (s : State) (b : Byte) : (s.emit b).alloc = s.alloc := rfl

@[simp] theorem State.emit_inPos (s : State) (b : Byte) : (s.emit b).inPos = s.inPos := rfl

@[simp] theorem State.emit_out (s : State) (b : Byte) : (s.emit b).out = s.out ++ [b] := rfl

@[simp] theorem State.emit_input (s : State) (b : Byte) : (s.emit b).input = s.input := rfl

@[simp] theorem State.emit_capacity (s : State) (b : Byte) : (s.emit b).capacity = s.capacity := rfl

@[simp] theorem State.emit_opmap (s : State) (b : Byte) : (s.emit b).opmap = s.opmap := rfl

@[simp] theorem State.emit_reg (s : State) (b : Byte) (j : Reg) : (s.emit b).reg j = s.reg j := rfl

/-! ## supplyToken -/

@[simp] theorem State.supplyToken_x (s : State) (k : Token) : (s.supplyToken k).x = s.x := rfl

@[simp] theorem State.supplyToken_pc (s : State) (k : Token) : (s.supplyToken k).pc = s.pc := rfl

@[simp] theorem State.supplyToken_run (s : State) (k : Token) : (s.supplyToken k).run = s.run := rfl

@[simp] theorem State.supplyToken_segs (s : State) (k : Token) : (s.supplyToken k).segs = s.segs := rfl

@[simp] theorem State.supplyToken_alloc (s : State) (k : Token) : (s.supplyToken k).alloc = s.alloc := rfl

@[simp] theorem State.supplyToken_inPos (s : State) (k : Token) : (s.supplyToken k).inPos = s.inPos := rfl

@[simp] theorem State.supplyToken_out (s : State) (k : Token) : (s.supplyToken k).out = s.out := rfl

@[simp] theorem State.supplyToken_input (s : State) (k : Token) : (s.supplyToken k).input = s.input ++ [k] := rfl

@[simp] theorem State.supplyToken_capacity (s : State) (k : Token) : (s.supplyToken k).capacity = s.capacity := rfl

@[simp] theorem State.supplyToken_opmap (s : State) (k : Token) : (s.supplyToken k).opmap = s.opmap := rfl

@[simp] theorem State.supplyToken_reg (s : State) (k : Token) (j : Reg) : (s.supplyToken k).reg j = s.reg j := rfl

/-! ## Consequences used in every frame -/

theorem State.advance_pc_toNat (s : State) : s.advance.pc.toNat = (s.pc.toNat + 1) % 4294967296 := by
  simp [BitVec.toNat_add]

@[simp] theorem State.setReg_fits (s : State) (i : Reg) (v : Word) (n : Nat) : (s.setReg i v).fits n = s.fits n := rfl

@[simp] theorem State.advance_fits (s : State) (n : Nat) : s.advance.fits n = s.fits n := rfl

@[simp] theorem State.setPc_fits (s : State) (t : Word) (n : Nat) : (s.setPc t).fits n = s.fits n := rfl

@[simp] theorem State.setRun_fits (s : State) (r : RunState) (n : Nat) : (s.setRun r).fits n = s.fits n := rfl

@[simp] theorem State.setSegs_fits (s : State) (m : Memory) (n : Nat) : (s.setSegs m).fits n = s.fits n := rfl

@[simp] theorem State.setAlloc_fits (s : State) (a : Alloc) (n : Nat) : (s.setAlloc a).fits n = s.fits n := rfl

@[simp] theorem State.consumeToken_fits (s : State) (n : Nat) : s.consumeToken.fits n = s.fits n := rfl

@[simp] theorem State.emit_fits (s : State) (b : Byte) (n : Nat) : (s.emit b).fits n = s.fits n := rfl

@[simp] theorem State.supplyToken_fits (s : State) (k : Token) (n : Nat) : (s.supplyToken k).fits n = s.fits n := rfl

theorem regsKept_of_setReg (s : State) (i : Reg) (v : Word) : regsKept [i] s (s.setReg i v) := by
  intro r hr
  exact State.setReg_reg_of_ne s v (by simpa using hr)

theorem memoryKept_of_eq {s t : State} (hm : t.segs = s.segs) (ha : t.alloc = s.alloc) : memoryKept s t :=
  ⟨hm, ha, fun h o => by rw [hm]⟩

end Sys2Proof.Machine
end

