-- ==== Sys2Proof/Laws/Ops.lean ====
section
/-!
SUPPORT. For each shared operation, once, everything it can do: taking a fault, allocation, release, program
replacement, fetch; and that allocation and release keep the allocator state in agreement with the segment table.
-/

namespace Sys2Proof.Machine

/-! ## Faults -/

@[simp] theorem raise_eq (c : Cause) (s : State) : raise c s = .next (s.setRun (.faulted c)) := rfl

@[simp] theorem orRaise_ok {α : Type} (v : α) (s : State) (k : α → State) : orRaise (.ok v) s k = .next (k v) := rfl

@[simp] theorem orRaise_error {α : Type} (c : Cause) (s : State) (k : α → State) :
    orRaise (.error c) s k = .next (s.setRun (.faulted c)) := rfl

/-- An execute phase with checks always answers a next state: the fault taken in the state before, or its effect. -/
theorem orRaise_next {α : Type} {r : Except Cause α} {s t : State} {k : α → State} (h : orRaise r s k = .next t) :
    (∃ c, r = .error c ∧ t = s.setRun (.faulted c)) ∨ ∃ v, r = .ok v ∧ t = k v := by
  cases r with
  | error c => exact .inl ⟨c, rfl, by simpa using h.symm⟩
  | ok v => exact .inr ⟨v, rfl, by simpa using h.symm⟩

theorem faultedWith_setRun (c : Cause) (s : State) : faultedWith c s (s.setRun (.faulted c)) := rfl

/-! ## The allocation policy -/

/-- The contract of R48: the handle picked is not 0 and not mapped. -/
theorem Alloc.pick_contract {al : Alloc} {m : Memory} (hm : Memory.wf m = true) (ha : al.agrees m)
    (hl : Memory.handleLeft m = true) : (al.pick m).1 ≠ 0#32 ∧ Memory.mapped m (al.pick m).1 = false := by
  cases al with
  | drawn n =>
    simp only [Alloc.pick]
    split
    · next h => exact h
    · obtain ⟨h1, h2, -⟩ := Memory.lowestUnmapped_spec hm
      have hlt : Memory.lowestUnmapped m < Config.handleCount := by simpa [Memory.handleLeft] using hl
      have hn : (BitVec.ofNat 32 (Memory.lowestUnmapped m)).toNat = Memory.lowestUnmapped m := by
        simpa [Config.handleCount] using hlt
      refine ⟨fun e => ?_, ?_⟩
      · rw [e] at hn; simp at hn; omega
      · rw [Memory.mapped_eq_false_iff, Memory.seg?, hn]; exact h2
  | reference free next =>
    obtain ⟨h1, h2, h3, h4, h5, h6⟩ := ha
    cases free with
    | cons h free =>
      obtain ⟨h0, hlt⟩ := h4 h List.mem_cons_self
      refine ⟨h0, ?_⟩
      by_contra hc
      exact ((h6 h h0 hlt).mp (by simpa [Alloc.pick] using hc)) List.mem_cons_self
    | nil =>
      obtain ⟨u, hu0, hu⟩ := (Memory.handleLeft_iff hm).mp hl
      have hnext : next < Config.handleCount := by
        by_contra hge
        have hu' : u.toNat < next := by
          have := u.isLt
          simp only [Config.handleCount] at hge
          omega
        have := (h6 u hu0 hu').mpr (by simp)
        simp [hu] at this
      have hn : (BitVec.ofNat 32 next).toNat = next := by simpa [Config.handleCount] using hnext
      refine ⟨fun e => ?_, ?_⟩
      · simp only [Alloc.pick] at e
        rw [e] at hn; simp at hn; omega
      · by_contra hc
        have := h5 (BitVec.ofNat 32 next) (by simpa [Alloc.pick] using hc)
        omega

theorem Alloc.agrees_congr {al : Alloc} {m m' : Memory} (h : ∀ k, Memory.mapped m' k = Memory.mapped m k)
    (ha : al.agrees m) : al.agrees m' := by
  cases al with
  | drawn n => trivial
  | reference free next => simpa only [Alloc.agrees, h] using ha

theorem Alloc.agrees_after_pick {al : Alloc} {m : Memory} (g : Segment) (hm : Memory.wf m = true) (ha : al.agrees m)
    (hl : Memory.handleLeft m = true) : (al.pick m).2.agrees (assocSet (al.pick m).1.toNat g m) := by
  have hc := Alloc.pick_contract hm ha hl
  cases al with
  | drawn n => trivial
  | reference free next =>
    obtain ⟨h1, h2, h3, h4, h5, h6⟩ := ha
    cases free with
    | cons h free =>
      simp only [Alloc.pick] at hc ⊢
      obtain ⟨hnot, hnd⟩ := List.nodup_cons.mp h3
      refine ⟨h1, h2, hnd, fun k hk => h4 k (List.mem_cons_of_mem _ hk), fun k hk => ?_, fun k hk0 hlt => ?_⟩
      · rw [Memory.mapped_set] at hk
        by_cases e : k = h
        · exact e ▸ (h4 h List.mem_cons_self).2
        · exact h5 k (by simpa [e] using hk)
      · rw [Memory.mapped_set]
        by_cases e : k = h
        · subst e; simp [hnot]
        · simpa [e] using h6 k hk0 hlt
    | nil =>
      simp only [Alloc.pick] at hc ⊢
      obtain ⟨hc0, hcm⟩ := hc
      have hnext : next < Config.handleCount := by
        by_contra hge
        have : next = 4294967296 := by simp only [Config.handleCount] at hge h2; omega
        exact hc0 (by simp [this])
      have hn : (BitVec.ofNat 32 next).toNat = next := by simpa [Config.handleCount] using hnext
      refine ⟨by omega, by omega, List.nodup_nil, by simp, fun k hk => ?_, fun k hk0 hlt => ?_⟩
      · rw [Memory.mapped_set] at hk
        by_cases e : k = BitVec.ofNat 32 next
        · rw [e, hn]; omega
        · have := h5 k (by simpa [e] using hk); omega
      · rw [Memory.mapped_set]
        by_cases e : k = BitVec.ofNat 32 next
        · simp [e]
        · have hne : k.toNat ≠ next := fun c => e (BitVec.eq_of_toNat_eq (by rw [hn]; exact c))
          simpa [e] using h6 k hk0 (by omega)

theorem Alloc.agrees_after_release {al : Alloc} {m : Memory} {h : Word} (h0 : h ≠ 0#32)
    (hmap : Memory.mapped m h = true) (ha : al.agrees m) : (al.release h).agrees (assocErase h.toNat m) := by
  cases al with
  | drawn n => trivial
  | reference free next =>
    obtain ⟨h1, h2, h3, h4, h5, h6⟩ := ha
    have hlt := h5 h hmap
    refine ⟨h1, h2, List.nodup_cons.mpr ⟨(h6 h h0 hlt).mp hmap, h3⟩, fun k hk => ?_, fun k hk => ?_, fun k hk0 hkl => ?_⟩
    · rcases List.mem_cons.mp hk with e | e
      · exact e ▸ ⟨h0, hlt⟩
      · exact h4 k e
    · rw [Memory.mapped_erase] at hk
      exact h5 k (by simp at hk; exact hk.2)
    · rw [Memory.mapped_erase]
      by_cases e : k = h
      · simp [e]
      · simpa [e] using h6 k hk0 hkl

/-! ## Capacity -/

theorem State.fits_mono {s : State} {n k : Nat} (h : s.fits n = true) (hk : k ≤ n) : s.fits k = true := by
  unfold State.fits at h ⊢
  cases hc : s.capacity with
  | none => rfl
  | some cap => simp only [hc, decide_eq_true_eq] at h ⊢; omega

/-! ## Alloc, Free and the copy of LOADP -/

/-- Everything a successful `Alloc` does (R47). -/
theorem State.allocSegment_ok {s u : State} {n h : Word} (e : s.allocSegment n = .ok (h, u)) :
    s.fits (Memory.used s.segs + n.toNat) = true ∧ Memory.handleLeft s.segs = true ∧ h = (s.alloc.pick s.segs).1 ∧
      u = (s.setSegs (assocSet h.toNat (Segment.zeros n.toNat) s.segs)).setAlloc (s.alloc.pick s.segs).2 := by
  unfold State.allocSegment at e
  split at e
  · simp at e
  · split at e
    · simp at e
    · next h1 h2 =>
      simp only [Except.ok.injEq, Prod.mk.injEq] at e
      obtain ⟨rfl, rfl⟩ := e
      exact ⟨by simpa using h1, by simpa using h2, rfl, rfl⟩

/-- `Alloc` succeeds exactly when both checks pass (R47). -/
theorem State.allocSegment_eq {s : State} {n : Word} (h1 : s.fits (Memory.used s.segs + n.toNat) = true)
    (h2 : Memory.handleLeft s.segs = true) :
    s.allocSegment n = .ok ((s.alloc.pick s.segs).1,
      (s.setSegs (assocSet (s.alloc.pick s.segs).1.toNat (Segment.zeros n.toNat) s.segs)).setAlloc
        (s.alloc.pick s.segs).2) := by
  simp [State.allocSegment, h1, h2]

/-- The only fault of `Alloc` (R47). -/
theorem State.allocSegment_error {s : State} {n : Word} {c : Cause} (e : s.allocSegment n = .error c) :
    c = .resourceExhausted ∧
      (s.fits (Memory.used s.segs + n.toNat) = false ∨ Memory.handleLeft s.segs = false) := by
  unfold State.allocSegment at e
  split at e
  · next h => exact ⟨by simpa using e.symm, .inl h⟩
  · split at e
    · next h => exact ⟨by simpa using e.symm, .inr h⟩
    · simp at e

theorem State.allocSegment_of_unfit {s : State} {n : Word} (h : s.fits (Memory.used s.segs + n.toNat) = false) :
    s.allocSegment n = .error .resourceExhausted := if_pos h

theorem State.allocSegment_of_noHandle {s : State} (n : Word) (h : Memory.handleLeft s.segs = false) :
    s.allocSegment n = .error .resourceExhausted := by
  simp [State.allocSegment, h]

/-- Everything a successful `Free` does (R50). -/
theorem State.freeSegment_ok {s u : State} {h : Word} (e : s.freeSegment h = .ok u) :
    h ≠ 0#32 ∧ Memory.mapped s.segs h = true ∧
      u = (s.setSegs (assocErase h.toNat s.segs)).setAlloc (s.alloc.release h) := by
  unfold State.freeSegment at e
  split at e
  · simp at e
  · next hn =>
    obtain ⟨h0, hm⟩ := not_or.mp hn
    exact ⟨h0, by simpa using hm, by simpa using e.symm⟩

theorem State.freeSegment_eq {s : State} {h : Word} (h0 : h ≠ 0#32) (hm : Memory.mapped s.segs h = true) :
    s.freeSegment h = .ok ((s.setSegs (assocErase h.toNat s.segs)).setAlloc (s.alloc.release h)) := by
  simp [State.freeSegment, h0, hm]

theorem State.freeSegment_of_bad {s : State} {h : Word} (hb : h = 0#32 ∨ Memory.mapped s.segs h = false) :
    s.freeSegment h = .error (.invalidRelease h) := if_pos hb

/-- The only fault of `Free`, for either cause (R50, conflict C2). -/
theorem State.freeSegment_error {s : State} {h : Word} {c : Cause} (e : s.freeSegment h = .error c) :
    c = .invalidRelease h ∧ (h = 0#32 ∨ Memory.mapped s.segs h = false) := by
  unfold State.freeSegment at e
  split at e
  · next hn => exact ⟨by simpa using e.symm, hn⟩
  · simp at e

/-- Everything a successful program replacement does (R125). -/
theorem State.replaceProgram_ok {s u : State} {h : Word} (e : s.replaceProgram h = .ok u) :
    ∃ g, Memory.seg? s.segs h = some g ∧
      ((h = 0#32 ∧ u = s) ∨
        (h ≠ 0#32 ∧ s.fits (Memory.used s.segs - Memory.len0 s.segs + g.len) = true ∧
          u = s.setSegs (assocSet 0 g s.segs))) := by
  unfold State.replaceProgram at e
  split at e
  · simp at e
  · next g hg =>
    refine ⟨g, hg, ?_⟩
    split at e
    · next h0 => exact .inl ⟨h0, by simpa using e.symm⟩
    · next h0 =>
      split at e
      · simp at e
      · next hf => exact .inr ⟨h0, by simpa using hf, by simpa using e.symm⟩

/-- The faults of a program replacement (R125, R182). -/
theorem State.replaceProgram_error {s : State} {h : Word} {c : Cause} (e : s.replaceProgram h = .error c) :
    (Memory.seg? s.segs h = none ∧ c = .invalidSegment h) ∨
      ∃ g, Memory.seg? s.segs h = some g ∧ h ≠ 0#32 ∧ c = .resourceExhausted ∧
        s.fits (Memory.used s.segs - Memory.len0 s.segs + g.len) = false := by
  unfold State.replaceProgram at e
  split at e
  · next hg => exact .inl ⟨hg, by simpa using e.symm⟩
  · next g hg =>
    split at e
    · simp at e
    · next h0 =>
      split at e
      · next hf => exact .inr ⟨g, hg, h0, by simpa using e.symm, hf⟩
      · simp at e

theorem State.replaceProgram_of_unmapped {s : State} {h : Word} (hg : Memory.seg? s.segs h = none) :
    s.replaceProgram h = .error (.invalidSegment h) := by
  simp [State.replaceProgram, hg]

theorem State.replaceProgram_of_zero {s : State} (hm : Memory.mapped s.segs 0#32 = true) :
    s.replaceProgram 0#32 = .ok s := by
  obtain ⟨g, hg⟩ := (Memory.mapped_iff _ _).mp hm
  simp [State.replaceProgram, hg]

theorem State.replaceProgram_of_fit {s : State} {h : Word} {g : Segment} (h0 : h ≠ 0#32)
    (hg : Memory.seg? s.segs h = some g) (hf : s.fits (Memory.used s.segs - Memory.len0 s.segs + g.len) = true) :
    s.replaceProgram h = .ok (s.setSegs (assocSet 0 g s.segs)) := by
  simp [State.replaceProgram, hg, h0, hf]

theorem State.replaceProgram_of_unfit {s : State} {h : Word} {g : Segment} (h0 : h ≠ 0#32)
    (hg : Memory.seg? s.segs h = some g) (hf : s.fits (Memory.used s.segs - Memory.len0 s.segs + g.len) = false) :
    s.replaceProgram h = .error .resourceExhausted := by
  simp [State.replaceProgram, hg, h0, hf]

theorem State.fits_iff (s : State) (n : Nat) : s.fits n = true ↔ ∀ cap, s.capacity = some cap → n ≤ cap := by
  unfold State.fits
  cases s.capacity <;> simp

theorem State.fits_eq_false_iff (s : State) (n : Nat) : s.fits n = false ↔ ∃ cap, s.capacity = some cap ∧ cap < n := by
  unfold State.fits
  cases s.capacity <;> simp

theorem Memory.len0_eq (m : Memory) : Memory.len0 m = ((assocGet 0 m).map Segment.len).getD 0 := by
  unfold Memory.len0
  have : Memory.seg? m 0#32 = assocGet 0 m := rfl
  rw [this]
  cases assocGet 0 m <;> rfl

/-- The words used after segment 0 is replaced, as the capacity check of LOADP counts them (R125). -/
theorem Memory.used_set_zero (g : Segment) {m : Memory} (hm : Memory.wf m = true) :
    Memory.used (assocSet 0 g m) = Memory.used m - Memory.len0 m + g.len := by
  have h := Memory.used_set 0 g ((Memory.wf_iff m).mp hm).1
  rw [← Memory.len0_eq] at h
  have hle : Memory.len0 m ≤ Memory.used m := by
    rw [Memory.len0_eq]
    cases e : assocGet 0 m with
    | none => simp
    | some u => simpa using Memory.len_le_used e
  omega

/-! ## Fetch -/

theorem State.fetch_ok_iff (s : State) (w : Word) : s.fetch = .ok w ↔ Memory.read s.segs 0#32 s.pc = .ok w := by
  unfold State.fetch
  cases e : Memory.seg? s.segs 0#32 with
  | none => simp [Memory.read, e]
  | some g => by_cases h : g.len ≤ s.pc.toNat <;> simp [Memory.read, e, h]

theorem State.fetch_error {s : State} {c : Cause} (h : s.fetch = .error c) : c = .fetchOutOfBounds s.pc := by
  unfold State.fetch at h
  split at h
  · simpa using h.symm
  · split at h
    · simpa using h.symm
    · simp at h

/-- The word that `withFetchWord` places is the word the next step fetches. -/
theorem State.withFetchWord_fetch (s : State) (nbits w : Nat) :
    (s.withFetchWord nbits w).fetch = .ok (BitVec.ofNat 32 (w % 2 ^ nbits)) := by
  rw [State.fetch_ok_iff, State.withFetchWord, Memory.placeWord]
  rw [Memory.read_of_lt (by simp only [Memory.seg?_set_zero, if_true]; rfl)]
  · rw [Segment.read_write, if_pos rfl]
  · simp only [Segment.write_len]; omega

/-- Everything the front half of a step can answer (R150, R182). -/
theorem State.fetchDecode_cases (s : State) :
    (s.fetch = .error (.fetchOutOfBounds s.pc) ∧ s.fetchDecode = .error (.fetchOutOfBounds s.pc)) ∨
      ∃ w, s.fetch = .ok w ∧
        ((∃ v, decodeWith s.opmap w = .error (.invalidOpcode v) ∧ s.fetchDecode = .error (.invalidOpcode v)) ∨
          ∃ i, decodeWith s.opmap w = .ok i ∧ s.fetchDecode = .ok i) := by
  unfold State.fetchDecode
  cases hf : s.fetch with
  | error c =>
    obtain rfl := State.fetch_error hf
    exact .inl ⟨rfl, rfl⟩
  | ok w =>
    refine .inr ⟨w, rfl, ?_⟩
    cases hd : decodeWith s.opmap w with
    | error r => cases r with | invalidOpcode v => exact .inl ⟨v, rfl, by simp [hd]⟩
    | ok i => exact .inr ⟨i, rfl, by simp [hd]⟩

/-- Everything a step can do (R150): it starts in `Running`, and either takes the fault of fetch or decode, or is
the execution of the decoded instruction. -/
theorem step_next {s t : State} (h : step s = .next t) :
    s.run = .running ∧
      ((t = s.setRun (.faulted (.fetchOutOfBounds s.pc)) ∧ s.fetch = .error (.fetchOutOfBounds s.pc)) ∨
        (∃ w v, s.fetch = .ok w ∧ decodeWith s.opmap w = .error (.invalidOpcode v) ∧
          t = s.setRun (.faulted (.invalidOpcode v))) ∨
        ∃ w i, s.fetch = .ok w ∧ decodeWith s.opmap w = .ok i ∧ exec i s = .next t) := by
  unfold step at h
  cases hr : s.run with
  | halted => simp [hr] at h
  | faulted c => simp [hr] at h
  | running =>
    refine ⟨rfl, ?_⟩
    rw [hr] at h
    rcases State.fetchDecode_cases s with ⟨hf, hfd⟩ | ⟨w, hf, ⟨v, hd, hfd⟩ | ⟨i, hd, hfd⟩⟩
    · rw [hfd] at h; exact .inl ⟨by simpa using h.symm, hf⟩
    · rw [hfd] at h; exact .inr (.inl ⟨w, v, hf, hd, by simpa using h.symm⟩)
    · rw [hfd] at h; exact .inr (.inr ⟨w, i, hf, hd, h⟩)

end Sys2Proof.Machine
end

