-- ==== Sys2Proof/Laws/Exec.lean ====
section
/-!
SUPPORT. What executing one instruction can do, said once: the inductive relation `Effect`, one constructor per way
an execute phase ends, and the lemma that every execution is one of them.
-/

namespace Sys2Proof.Machine

/-- The ways an execute phase ends: a fault of one of its checks, which changes nothing but the run state, the hold of
IN, HALT, or the one effect of the instruction. -/
inductive Effect (s : State) : Instr → State → Prop where
  | sloadFault (a b c : Reg) (k : Cause) : Memory.read s.segs (s.reg b) (s.reg c) = .error k →
      Effect s (.sload a b c) (s.setRun (.faulted k))
  | sstoreFault (a b c : Reg) (k : Cause) : Memory.read s.segs (s.reg a) (s.reg b) = .error k →
      Effect s (.sstore a b c) (s.setRun (.faulted k))
  | divFault (a b c : Reg) : s.reg c = 0#32 → Effect s (.div a b c) (s.setRun (.faulted .divisionByZero))
  | mapFault (b c : Reg) (k : Cause) : s.allocSegment (s.reg c) = .error k →
      Effect s (.map b c) (s.setRun (.faulted k))
  | unmapFault (c : Reg) (k : Cause) : s.freeSegment (s.reg c) = .error k →
      Effect s (.unmap c) (s.setRun (.faulted k))
  | outFault (c : Reg) : 255 < (s.reg c).toNat → Effect s (.out c) (s.setRun (.faulted (.invalidOutput (s.reg c))))
  | loadpFault (b c : Reg) (k : Cause) : s.replaceProgram (s.reg b) = .error k →
      Effect s (.loadp b c) (s.setRun (.faulted k))
  | cmovKeep (a b c : Reg) : s.reg c = 0#32 → Effect s (.cmov a b c) s.advance
  | cmovMove (a b c : Reg) : s.reg c ≠ 0#32 → Effect s (.cmov a b c) (aluResult a (s.reg b) s)
  | sload (a b c : Reg) (v : Word) : Memory.read s.segs (s.reg b) (s.reg c) = .ok v →
      Effect s (.sload a b c) (s.setReg a v).advance
  | sstore (a b c : Reg) (m : Memory) : Memory.write s.segs (s.reg a) (s.reg b) (s.reg c) = .ok m →
      Effect s (.sstore a b c) (s.setSegs m).advance
  | add (a b c : Reg) : Effect s (.add a b c) (aluResult a (s.reg b + s.reg c) s)
  | mul (a b c : Reg) : Effect s (.mul a b c) (aluResult a (s.reg b * s.reg c) s)
  | div (a b c : Reg) : s.reg c ≠ 0#32 →
      Effect s (.div a b c) (aluResult a (BitVec.ofNat 32 ((s.reg b).toNat / (s.reg c).toNat)) s)
  | nand (a b c : Reg) : Effect s (.nand a b c) (aluResult a (~~~(s.reg b &&& s.reg c)) s)
  | halt : Effect s .halt (s.setRun .halted)
  | map (b c : Reg) (h : Word) (u : State) : s.allocSegment (s.reg c) = .ok (h, u) →
      Effect s (.map b c) (u.setReg b h).advance
  | unmap (c : Reg) (u : State) : s.freeSegment (s.reg c) = .ok u → Effect s (.unmap c) u.advance
  | out (c : Reg) : (s.reg c).toNat ≤ 255 → Effect s (.out c) (s.emit ((s.reg c).setWidth 8)).advance
  | inpHold (c : Reg) : s.nextToken = none → Effect s (.inp c) s
  | inp (c : Reg) (k : Token) : s.nextToken = some k → Effect s (.inp c) (s.consumeToken.setReg c k.word).advance
  | loadp (b c : Reg) (u : State) : s.replaceProgram (s.reg b) = .ok u → Effect s (.loadp b c) (u.setPc (s.reg c))
  | loadv (a : Reg) (imm : Word) : Effect s (.loadv a imm) (aluResult a (literal imm) s)

theorem quotient_ok {n d v : Word} (h : quotient n d = .ok v) : d ≠ 0#32 ∧ v = BitVec.ofNat 32 (n.toNat / d.toNat) := by
  unfold quotient at h
  split at h
  · simp at h
  · next h0 => exact ⟨h0, by simpa using h.symm⟩

theorem quotient_error {n d : Word} {c : Cause} (h : quotient n d = .error c) : d = 0#32 ∧ c = .divisionByZero := by
  unfold quotient at h
  split at h
  · next h0 => exact ⟨h0, by simpa using h.symm⟩
  · simp at h

theorem outputByte_ok {v : Word} {b : Byte} (h : outputByte v = .ok b) : v.toNat ≤ 255 ∧ b = v.setWidth 8 := by
  unfold outputByte at h
  split at h
  · simp at h
  · next h0 => exact ⟨by omega, by simpa using h.symm⟩

theorem outputByte_error {v : Word} {c : Cause} (h : outputByte v = .error c) : 255 < v.toNat ∧ c = .invalidOutput v := by
  unfold outputByte at h
  split at h
  · next h0 => exact ⟨h0, by simpa using h.symm⟩
  · simp at h

theorem Memory.read_error {m : Memory} {h o : Word} {c : Cause} (e : Memory.read m h o = .error c) :
    (Memory.seg? m h = none ∧ c = .invalidSegment h) ∨
      ∃ g, Memory.seg? m h = some g ∧ g.len ≤ o.toNat ∧ c = .segmentOutOfBounds h o := by
  unfold Memory.read at e
  split at e
  · next hg => exact .inl ⟨hg, by simpa using e.symm⟩
  · next g hg =>
    split at e
    · next hle => exact .inr ⟨g, hg, hle, by simpa using e.symm⟩
    · simp at e

/-- Everything executing an instruction can do. -/
theorem exec_effect {i : Instr} {s t : State} (h : exec i s = .next t) : Effect s i t := by
  cases i with
  | cmov a b c =>
    simp only [exec, execCmov, Host.Outcome.next.injEq] at h
    by_cases hc : s.reg c = 0#32
    · simp only [holds, hc, ne_eq, not_true_eq_false, decide_false, Bool.false_eq_true, if_false] at h
      exact h ▸ .cmovKeep a b c hc
    · simp only [holds, ne_eq, hc, not_false_eq_true, decide_true, if_true] at h
      exact h ▸ .cmovMove a b c hc
  | sload a b c =>
    rcases orRaise_next h with ⟨k, he, rfl⟩ | ⟨v, hv, rfl⟩
    · exact .sloadFault a b c k he
    · exact .sload a b c v hv
  | sstore a b c =>
    rcases orRaise_next h with ⟨k, he, rfl⟩ | ⟨m, hm, rfl⟩
    · exact .sstoreFault a b c k ((Memory.write_error_iff _ _ _ _ _).mp he)
    · exact .sstore a b c m hm
  | add a b c => cases h; exact .add a b c
  | mul a b c => cases h; exact .mul a b c
  | div a b c =>
    rcases orRaise_next h with ⟨k, he, rfl⟩ | ⟨v, hv, rfl⟩
    · obtain ⟨h0, rfl⟩ := quotient_error he
      exact .divFault a b c h0
    · obtain ⟨h0, rfl⟩ := quotient_ok hv
      exact .div a b c h0
  | nand a b c => cases h; exact .nand a b c
  | halt => cases h; exact .halt
  | map b c =>
    rcases orRaise_next h with ⟨k, he, rfl⟩ | ⟨⟨p, u⟩, hp, rfl⟩
    · exact .mapFault b c k he
    · exact .map b c p u hp
  | unmap c =>
    rcases orRaise_next h with ⟨k, he, rfl⟩ | ⟨u, hu, rfl⟩
    · exact .unmapFault c k he
    · exact .unmap c u hu
  | out c =>
    rcases orRaise_next h with ⟨k, he, rfl⟩ | ⟨b, hb, rfl⟩
    · obtain ⟨hlt, rfl⟩ := outputByte_error he
      exact .outFault c hlt
    · obtain ⟨hle, rfl⟩ := outputByte_ok hb
      exact .out c hle
  | inp c =>
    simp only [exec, execIn] at h
    cases hk : s.nextToken with
    | none => rw [hk] at h; cases h; exact .inpHold c hk
    | some k => rw [hk] at h; cases h; exact .inp c k hk
  | loadp b c =>
    rcases orRaise_next h with ⟨k, he, rfl⟩ | ⟨u, hu, rfl⟩
    · exact .loadpFault b c k he
    · exact .loadp b c u hu
  | loadv a imm => cases h; exact .loadv a imm

/-- Each way an execute phase can end is one that execution takes. -/
theorem exec_of_effect {i : Instr} {s t : State} (h : Effect s i t) : exec i s = .next t := by
  cases h with
  | sloadFault a b c k e => simp [exec, execSload, State.addressBC, e]
  | sstoreFault a b c k e =>
    simp [exec, execSstore, State.addressAB, (Memory.write_error_iff _ _ _ (s.reg c) _).mpr e]
  | divFault a b c e => simp [exec, execDiv, quotient, e]
  | mapFault b c k e => simp [exec, execMap, e]
  | unmapFault c k e => simp [exec, execUnmap, e]
  | outFault c e => simp [exec, execOut, outputByte, e]
  | loadpFault b c k e => simp [exec, execLoadp, e]
  | cmovKeep a b c e => simp [exec, execCmov, holds, e]
  | cmovMove a b c e => simp [exec, execCmov, holds, e]
  | sload a b c v e => simp [exec, execSload, State.addressBC, e]
  | sstore a b c m e => simp [exec, execSstore, State.addressAB, e]
  | add a b c => rfl
  | mul a b c => rfl
  | div a b c e => simp [exec, execDiv, quotient, e]
  | nand a b c => rfl
  | halt => rfl
  | map b c h u e => simp [exec, execMap, e]
  | unmap c u e => simp [exec, execUnmap, e]
  | out c e => simp [exec, execOut, outputByte, Nat.not_lt.mpr e]
  | inpHold c e => simp [exec, execIn, e]
  | inp c k e => simp [exec, execIn, e]
  | loadp b c u e => simp [exec, execLoadp, e]
  | loadv a imm => rfl

theorem exec_next_iff (i : Instr) (s t : State) : exec i s = .next t ↔ Effect s i t := ⟨exec_effect, exec_of_effect⟩

/-! ## The fields an ALU result touches -/

@[simp] theorem aluResult_run (a : Reg) (v : Word) (s : State) : (aluResult a v s).run = s.run := rfl

@[simp] theorem aluResult_pc (a : Reg) (v : Word) (s : State) : (aluResult a v s).pc = s.pc + 1#32 := rfl

@[simp] theorem aluResult_segs (a : Reg) (v : Word) (s : State) : (aluResult a v s).segs = s.segs := rfl

@[simp] theorem aluResult_alloc (a : Reg) (v : Word) (s : State) : (aluResult a v s).alloc = s.alloc := rfl

@[simp] theorem aluResult_inPos (a : Reg) (v : Word) (s : State) : (aluResult a v s).inPos = s.inPos := rfl

@[simp] theorem aluResult_out (a : Reg) (v : Word) (s : State) : (aluResult a v s).out = s.out := rfl

@[simp] theorem aluResult_input (a : Reg) (v : Word) (s : State) : (aluResult a v s).input = s.input := rfl

@[simp] theorem aluResult_capacity (a : Reg) (v : Word) (s : State) : (aluResult a v s).capacity = s.capacity := rfl

@[simp] theorem aluResult_opmap (a : Reg) (v : Word) (s : State) : (aluResult a v s).opmap = s.opmap := rfl

@[simp] theorem aluResult_fits (a : Reg) (v : Word) (s : State) (n : Nat) : (aluResult a v s).fits n = s.fits n := rfl

@[simp] theorem aluResult_reg_self (a : Reg) (v : Word) (s : State) : (aluResult a v s).reg a = v := by
  simp [aluResult]

theorem aluResult_reg_of_ne (a : Reg) (v : Word) (s : State) {r : Reg} (h : r ≠ a) :
    (aluResult a v s).reg r = s.reg r := by
  simp [aluResult, State.setReg_reg_of_ne s v h]

end Sys2Proof.Machine
end

