-- ==== Sys2Proof/Laws/PerInstr.lean ====
section
/-!
SUPPORT. The per-instruction family `OpcodeField`: the canonical word of a well-formed instruction carries, in bits
31:28, the number the opcode map gives its operation (R71, R84).
-/

namespace Sys2Proof.Laws.OpcodeField

/-- The opcode bits of an instruction's canonical word are its operation's number in the opcode map. -/
def Statement (i : Instr) : Prop := i.wf = true → opcodeField (encode i) = opcodeOf Config.opmap i.op

theorem opcode_small (o : Op) : opcodeOf Config.opmap o < 16 := lt_trans (opcodeOf_lt Config.opmap_wf o) (by decide)

theorem cmov (a b c : Reg) : Statement (.cmov a b c) :=
  fun _ => opcodeField_encABC (opcode_small .cmov) a b c

theorem sload (a b c : Reg) : Statement (.sload a b c) :=
  fun _ => opcodeField_encABC (opcode_small .sload) a b c

theorem sstore (a b c : Reg) : Statement (.sstore a b c) :=
  fun _ => opcodeField_encABC (opcode_small .sstore) a b c

theorem add (a b c : Reg) : Statement (.add a b c) :=
  fun _ => opcodeField_encABC (opcode_small .add) a b c

theorem mul (a b c : Reg) : Statement (.mul a b c) :=
  fun _ => opcodeField_encABC (opcode_small .mul) a b c

theorem div (a b c : Reg) : Statement (.div a b c) :=
  fun _ => opcodeField_encABC (opcode_small .div) a b c

theorem nand (a b c : Reg) : Statement (.nand a b c) :=
  fun _ => opcodeField_encABC (opcode_small .nand) a b c

theorem halt : Statement .halt :=
  fun _ => opcodeField_encNone (opcode_small .halt)

theorem map (b c : Reg) : Statement (.map b c) :=
  fun _ => opcodeField_encBC (opcode_small .map) b c

theorem unmap (c : Reg) : Statement (.unmap c) :=
  fun _ => opcodeField_encC (opcode_small .unmap) c

theorem out (c : Reg) : Statement (.out c) :=
  fun _ => opcodeField_encC (opcode_small .out) c

theorem inp (c : Reg) : Statement (.inp c) :=
  fun _ => opcodeField_encC (opcode_small .inp) c

theorem loadp (b c : Reg) : Statement (.loadp b c) :=
  fun _ => opcodeField_encBC (opcode_small .loadp) b c

theorem loadv (a : Reg) (imm : Word) : Statement (.loadv a imm) :=
  fun h => opcodeField_encLit (opcode_small .loadv) a (by simpa [Instr.wf] using h)

end Sys2Proof.Laws.OpcodeField
end

