-- ==== Sys2Proof/Tests/Slice0.lean ====
section
/-!
SUPPORT. Tests: the ill-formed terms each check refuses, one word per instruction written out from its encoding, the
spec's own vectors (95_test_vectors.md) one step each, and for every statement with hypotheses a witness that
meets them, at a boundary of their range where there is one.
-/

namespace Sys2Proof.Tests

open Sys2Proof Sys2Proof.Machine

/-! ## WellFormed: each check refuses an ill-formed term -/

theorem test_wf_literal_too_wide : (Instr.loadv 0 0x2000000#32).wf = false := by decide

theorem test_wf_literal_largest : (Instr.loadv 7 0x1FFFFFF#32).wf = true := by decide

theorem test_wf_map_missing_row : OpMap.hasFourteenRows (Config.opmap.take 13) = false := by decide

theorem test_wf_map_repeated_op : OpMap.namesEveryOp (.add :: Config.opmap.drop 1) = false := by decide

theorem test_wf_map_halt_elsewhere : OpMap.haltIsSeven (Config.opmap.drop 1) = false := by decide

theorem test_wf_map_default : OpMap.wf Config.opmap = true := by decide

theorem test_wf_image_too_long : imageWf (List.replicate 4294967296 0#32) = false := by
  rw [imageWf, List.length_replicate]; decide

theorem test_wf_image_empty : imageWf [] = true := by decide

theorem test_wf_memory_unsorted : Memory.wf [(1, Segment.zeros 0), (0, Segment.zeros 0)] = false := by decide

theorem test_wf_memory_listed_zero : Memory.wf [(0, { len := 1, words := [(0, 0#32)] })] = false := by decide

/-! ## Decode: the word of each instruction, bit 31 first, from the tables of R72 to R76 -/

theorem test_decode_cmov : decode 0b00000000000000000000000001010011#32 = .ok (.cmov 1 2 3) := by decide

theorem test_decode_sload : decode 0b00010000000000000000000110010101#32 = .ok (.sload 6 2 5) := by decide

theorem test_decode_sstore : decode 0b00100000000000000000000010011100#32 = .ok (.sstore 2 3 4) := by decide

theorem test_decode_add_ignores_bits : decode 0b00111111111111111111111001010011#32 = .ok (.add 1 2 3) := by decide

theorem test_decode_mul : decode 0b01000000000000000000000100100011#32 = .ok (.mul 4 4 3) := by decide

theorem test_decode_div : decode 0b01010000000000000000000010001000#32 = .ok (.div 2 1 0) := by decide

theorem test_decode_nand : decode 0b01100000000000000000000111111110#32 = .ok (.nand 7 7 6) := by decide

theorem test_decode_halt_ignores_bits : decode 0b01111010101111001101111011110000#32 = .ok .halt := by decide

theorem test_decode_map_ignores_bits : decode 0b10001111111111111111111111010011#32 = .ok (.map 2 3) := by decide

theorem test_decode_unmap : decode 0b10010000000000000000000000000010#32 = .ok (.unmap 2) := by decide

theorem test_decode_out : decode 0b10100000000000000000000000000111#32 = .ok (.out 7) := by decide

theorem test_decode_in_ignores_bit_three : decode 0b10110000000000000000000000001000#32 = .ok (.inp 0) := by decide

theorem test_decode_loadp : decode 0b11000000000000000000000000010110#32 = .ok (.loadp 2 6) := by decide

theorem test_decode_loadv_bit_24_is_literal :
    decode 0b11010001111111111111111111111111#32 = .ok (.loadv 0 0x1FFFFFF#32) := by decide

theorem test_decode_loadv_register_field : decode 0b11011110000000000000000000000001#32 = .ok (.loadv 7 1#32) := by decide

theorem test_decode_illegal : decode 0b11100000000000000000000000000000#32 = .error (.invalidOpcode 0xE0000000#32) := by decide

theorem test_encode_sload : encode (.sload 6 2 5) = 0x10000195#32 := by decide

theorem test_encode_loadv : encode (.loadv 7 1#32) = 0xDE000001#32 := by decide

theorem test_table_word : decodeTableWord 32 0xC0000016 = some (.loadp 2 6) := by decide

/-- The image bytes of program P1 (R203). -/
theorem test_image_bytes : imageOfBytes [0xD0#8, 0x00#8, 0x00#8, 0x48#8, 0xA0#8, 0x00#8, 0x00#8, 0x00#8] =
    some [0xD0000048#32, 0xA0000000#32] := by decide

/-! ## The small states of the tests -/

/-- A running machine with the program P1 in segment 0, segment 1 holding 10 and 20, two tokens supplied. -/
def demo : State :=
  { State.reset with
    segs := [(0, Segment.ofWords [0xD0000048#32, 0xA0000000#32, 0x70000000#32]),
      (1, { len := 2, words := [(0, 10#32), (1, 20#32)] })]
    alloc := .reference [] 2
    input := [.byte 0x41#8, .eof] }

/-- `demo` with registers set. -/
def demoWith (rs : List (Reg × Word)) : State := rs.foldl (fun s p => s.setReg p.1 p.2) demo

/-- The next state of an outcome, if it has one. -/
def after (o : Host.Outcome State Fault Refusal) : Option State :=
  match o with
  | .next s => some s
  | .fault _ => none
  | .refused _ => none

/-- A register after executing an instruction in `demo` with registers set. -/
def regAfter (i : Instr) (rs : List (Reg × Word)) (r : Reg) : Option Word :=
  (after (exec i (demoWith rs))).map fun s => s.reg r

/-- The run state after executing an instruction in `demo` with registers set. -/
def runAfter (i : Instr) (rs : List (Reg × Word)) : Option RunState :=
  (after (exec i (demoWith rs))).map fun s => s.run

/-! ## One step of each instruction, from the vectors of 95_test_vectors.md -/

/-- V-A3. -/
theorem test_cmov_moves : regAfter (.cmov 1 2 3) [(1, 5#32), (2, 9#32), (3, 0x80000000#32)] 1 = some 9#32 := by decide

/-- V-A2. -/
theorem test_cmov_keeps : regAfter (.cmov 1 2 3) [(1, 5#32), (2, 9#32), (3, 0#32)] 1 = some 5#32 := by decide

/-- V-A8. -/
theorem test_add : regAfter (.add 1 2 3) [(2, 0xDEADBEEF#32), (3, 0xCAFEBABE#32)] 1 = some 0xA9AC79AD#32 := by decide

/-- V-A9: sources are read before the destination is written. -/
theorem test_add_reads_first : regAfter (.add 1 1 1) [(1, 0x80000001#32)] 1 = some 2#32 := by decide

/-- V-A14. -/
theorem test_mul : regAfter (.mul 1 2 3) [(2, 0xDEADBEEF#32), (3, 0xCAFEBABE#32)] 1 = some 0x88CF5B62#32 := by decide

/-- V-A21. -/
theorem test_nand : regAfter (.nand 1 2 3) [(2, 0xFFFF0000#32), (3, 0x0FF0F00F#32)] 1 = some 0xF00FFFFF#32 := by decide

/-- V-A32. -/
theorem test_div_overwrites_divisor : regAfter (.div 3 2 3) [(2, 100#32), (3, 7#32)] 3 = some 14#32 := by decide

/-- V-A26. -/
theorem test_div_unsigned : regAfter (.div 1 2 3) [(2, 0x80000000#32), (3, 0xFFFFFFFF#32)] 1 = some 0#32 := by decide

/-- V-A34. -/
theorem test_loadv_clears_upper_bits :
    regAfter (.loadv 1 0x1FFFFFF#32) [(1, 0xFFFFFFFF#32)] 1 = some 0x01FFFFFF#32 := by decide

/-- The example of R121: handle in B, offset in C. -/
theorem test_sload : regAfter (.sload 3 2 4) [(2, 1#32), (4, 1#32)] 3 = some 20#32 := by decide

/-- V-M7: the handle is checked before the offset. -/
theorem test_sload_unmapped : runAfter (.sload 3 1 2) [(1, 9#32), (2, 0xFFFFFFFF#32)] =
    some (.faulted (.invalidSegment 9#32)) := by decide

/-- V-M8: handle in A, offset in B, value in C. -/
theorem test_sstore : (after (exec (.sstore 1 2 3) (demoWith [(1, 1#32), (2, 0#32), (3, 0xDEADBEEF#32)]))).map
    (fun s => Memory.seg? s.segs 1#32) = some (some { len := 2, words := [(0, 0xDEADBEEF#32), (1, 20#32)] }) := by decide

/-- Storing 0 unlists the word, so that equal memories are equal data. -/
theorem test_sstore_zero : (after (exec (.sstore 1 2 3) (demoWith [(1, 1#32), (2, 0#32), (3, 0#32)]))).map
    (fun s => Memory.seg? s.segs 1#32) = some (some { len := 2, words := [(1, 20#32)] }) := by decide

/-- V-M1, under the reference policy with handle 1 already issued. -/
theorem test_map : regAfter (.map 2 3) [(3, 4#32)] 2 = some 2#32 := by decide

/-- V-M19: 5 words are used, 3 more exceed a capacity of 7. -/
theorem test_map_exhausted : (after (exec (.map 2 3) { demoWith [(3, 3#32)] with capacity := some 7 })).map
    (fun s => s.run) = some (.faulted .resourceExhausted) := by decide

/-- V-M11. -/
theorem test_unmap : (after (exec (.unmap 1) (demoWith [(1, 1#32)]))).map
    (fun s => (Memory.mapped s.segs 1#32, s.alloc, s.reg 1)) = some (false, .reference [1#32] 2, 1#32) := by decide

/-- V-M10. -/
theorem test_unmap_zero : runAfter (.unmap 0) [] = some (.faulted (.invalidRelease 0#32)) := by decide

/-- V-M17: segment 0 becomes a copy of segment 1, which stays. -/
theorem test_loadp_copies : (after (exec (.loadp 1 2) (demoWith [(1, 1#32), (2, 7#32)]))).map
    (fun s => (Memory.seg? s.segs 0#32 == Memory.seg? s.segs 1#32, Memory.lengthAt s.segs 0#32, s.pc)) =
      some (true, some 2, 7#32) := by decide

/-- V-M16. -/
theorem test_loadp_jumps : (after (exec (.loadp 0 1) (demoWith [(1, 9#32)]))).map
    (fun s => (s.pc, s.segs == demo.segs)) = some (9#32, true) := by decide

/-- V-C3. -/
theorem test_out : (after (exec (.out 0) (demoWith [(0, 255#32)]))).map (fun s => s.out) = some [0xFF#8] := by decide

/-- V-C4. -/
theorem test_out_too_large : runAfter (.out 1) [(1, 256#32)] = some (.faulted (.invalidOutput 256#32)) := by decide

/-- V-C6. -/
theorem test_in_byte : regAfter (.inp 3) [(3, 0x12345678#32)] 3 = some 0x41#32 := by decide

/-- V-C8 and V-C11: end-of-input, then whatever comes next. -/
theorem test_in_eof : (after (exec (.inp 3) { demo with inPos := 1 })).map (fun s => (s.reg 3, s.inPos)) =
    some (0xFFFFFFFF#32, 2) := by decide

/-- The example of R155. -/
theorem test_halt : (after (exec .halt (demo.setPc 2#32))).map (fun s => (s.run, s.pc)) = some (.halted, 2#32) := by decide

/-- V-F5, as a step. -/
theorem test_step_invalid_opcode : (after (step (State.reset.withFetchWord 32 0xE0000000))).map (fun s => (s.run, s.pc)) =
    some (.faulted (.invalidOpcode 0xE0000000#32), 0#32) := by decide

/-- A placed word is the first instruction after reset. -/
theorem test_step_first_instruction : (after (step (State.reset.withFetchWord 32 0xD0000048))).map
    (fun s => (s.reg 0, s.pc, s.run)) = some (0x48#32, 1#32, .running) := by decide

/-- V-F8: 6 bytes are refused. -/
theorem test_boot_six_bytes :
    boot (some [0xD0#8, 0#8, 0#8, 0x48#8, 0xA0#8, 0#8]) Config.opmap [] none true = .fault (.faulted .loadFault) := rfl

/-- The codes of R170 are 1 to 9. -/
theorem test_cause_codes : [Cause.invalidOpcode 0#32, .fetchOutOfBounds 0#32, .invalidSegment 0#32,
    .segmentOutOfBounds 0#32 0#32, .invalidRelease 0#32, .divisionByZero, .invalidOutput 0#32, .loadFault,
    .resourceExhausted].map Cause.code = [1, 2, 3, 4, 5, 6, 7, 8, 9] := by decide

/-! ## Witnesses: encoding and reset -/

/-- An admissible opcode map other than the default one: opcode 0 is LOADV and opcode 13 is CMOV. -/
def otherMap : OpMap :=
  [.loadv, .sload, .sstore, .add, .mul, .div, .nand, .halt, .map, .unmap, .out, .inp, .loadp, .cmov]

/-- A machine reset under that map decodes by it: opcode 0 loads the literal 0x53 into register 0 (R7). -/
theorem test_step_under_other_map :
    ((after (bootWords [0x00000053#32] otherMap [] none true)).bind fun s => after (step s)).map
      (fun s => (s.reg 0, s.pc, s.run)) = some (0x53#32, 1#32, .running) := by decide

theorem witness_DecodeOfEncodeUnderEveryOpcodeMap :
    OpMap.wf otherMap = true ∧ otherMap ≠ Config.opmap ∧ (Instr.loadv 7 0x1FFFFFF#32).wf = true := by decide

theorem witness_EncodeOfDecodeIsCanonicalWord :
    OpMap.wf Config.opmap = true ∧ decodeWith Config.opmap 0x3FFFFE53#32 = .ok (.add 1 2 3) := by decide

theorem witness_IgnoredBitsDoNotAffectDecoding :
    OpMap.wf otherMap = true ∧ otherMap[opcodeField 0x8FFFFFD3#32]? = some .map ∧ opcodeField 0x7FFFFFFF#32 = 7 ∧
      31 < 32 := by decide

theorem witness_EveryWordIsAnInstructionOrIllegal :
    OpMap.wf otherMap = true ∧ opcodeField 0xDFFFFFFF#32 < 14 ∧ 14 ≤ opcodeField 0xE0000000#32 := by decide

theorem witness_ImageBytesAreBigEndianWords :
    ([0xD0#8, 0#8, 0#8, 0x48#8] : List Byte).length % 4 = 0 ∧ ([] : List Byte).length % 4 = 0 ∧
      ([0xD0#8, 0#8, 0#8, 0x48#8, 0xA0#8, 0#8] : List Byte).length % 4 ≠ 0 := by decide

theorem witness_ResetRefusesExactlyTheBadImages :
    (List.replicate 6 0#8).length % 4 ≠ 0 ∧ 4 * 4294967296 ≤ (List.replicate (4 * 4294967296) 0#8).length ∧
      (∃ cap, some 2 = some cap ∧ 4 * cap < (List.replicate 12 0#8).length) ∧
      (∀ cap, some 3 = some cap → (List.replicate 12 0#8).length ≤ 4 * cap) := by
  refine ⟨by decide, by rw [List.length_replicate], ⟨2, rfl, by decide⟩, fun cap h => ?_⟩
  cases h; decide

theorem witness_ResetStateIsTheTableOfInitialValues :
    (∃ s, bootWords [0x70000000#32] otherMap [.eof] (some 1) false = .next s) ∧
      ∃ s, bootWords [0x70000000#32] Config.opmap [] none true = .next s := ⟨⟨_, rfl⟩, _, rfl⟩

theorem witness_EveryBootMeetsInvariant :
    OpMap.wf otherMap = true ∧ ∃ s, boot (some [0x70#8, 0#8, 0#8, 0#8]) otherMap [.byte 0#8] none true = .next s :=
  ⟨by decide, _, rfl⟩

/-! ## Witnesses: the invariant holds of a concrete state that is not the reset state -/

theorem demo_mapped (h : Word) : Memory.mapped demo.segs h = (decide (h = 0#32) || decide (h = 1#32)) := by
  have e : demo.segs = assocSet (1#32).toNat { len := 2, words := [(0, 10#32), (1, 20#32)] }
      (assocSet 0 (Segment.ofWords [0xD0000048#32, 0xA0000000#32, 0x70000000#32]) []) := rfl
  rw [e, Memory.mapped_set, Memory.mapped_set_zero, Bool.or_comm]
  simp [Memory.mapped, Memory.seg?]

/-- `demo` with any registers, pc, capacity of at least 5 words and supplied input meets the invariant. -/
theorem demo_inv (x : Vector Word 8) (pc : Word) (cap : Option Nat) (hc : ∀ n, cap = some n → 5 ≤ n) :
    State.Inv { demo with x, pc, capacity := cap } where
  memory := (by decide : Memory.wf demo.segs = true)
  program := by rw [show ({ demo with x, pc, capacity := cap } : State).segs = demo.segs from rfl, demo_mapped]; rfl
  alloc := by
    show Alloc.agrees (.reference [] 2) demo.segs
    refine ⟨by decide, by decide, List.nodup_nil, by simp, fun h hm => ?_, fun h h0 hlt => ?_⟩
    · rw [demo_mapped] at hm
      rcases (by simpa using hm : h = 0#32 ∨ h = 1#32) with rfl | rfl <;> decide
    · have h1 : h = 1#32 := by
        apply BitVec.eq_of_toNat_eq
        have : h.toNat ≠ 0 := fun e => h0 (BitVec.eq_of_toNat_eq e)
        show h.toNat = 1
        omega
      simp [demo_mapped, h1]
  input := Nat.zero_le _
  capacity := (State.fits_iff _ _).mpr hc
  loaded := by simp [demo, State.reset]
  opmap := Config.opmap_wf

theorem demoWith_inv (rs : List (Reg × Word)) : (demoWith rs).Inv := by
  have key : ∀ (rs : List (Reg × Word)) (x : Vector Word 8),
      ∃ x', rs.foldl (fun s p => s.setReg p.1 p.2) { demo with x } = { demo with x := x' } := by
    intro rs
    induction rs with
    | nil => exact fun x => ⟨x, rfl⟩
    | cons p rs ih => exact fun x => ih _
  obtain ⟨x', hx⟩ := key rs demo.x
  have e : demoWith rs = { demo with x := x' } := hx
  rw [e]
  exact demo_inv x' demo.pc none (by simp)

/-! ## Witnesses: the step -/

theorem witness_StepRunsTheDecodedInstruction :
    demo.run = .running ∧ Memory.read demo.segs 0#32 demo.pc = .ok 0xD0000048#32 ∧
      decodeWith demo.opmap 0xD0000048#32 = .ok (.loadv 0 72#32) ∧ (Instr.loadv 0 72#32).wf = true := by decide

theorem witness_FetchAndDecodeFaultsInOrder :
    (State.reset.run = .running ∧ Memory.lengthAt State.reset.segs 0#32 = some 0 ∧ 0 ≤ State.reset.pc.toNat) ∧
      OpMap.wf (State.reset.withFetchWord 32 0xE0000000).opmap = true ∧
      Memory.read (State.reset.withFetchWord 32 0xE0000000).segs 0#32 0#32 = .ok 0xE0000000#32 ∧
      14 ≤ opcodeField 0xE0000000#32 := by decide

theorem witness_TerminalRunStatesAreFinal :
    (demo.setRun .halted).run ≠ .running ∧
      Reaches (demo.setRun .halted) ((demo.setRun .halted).supplyToken .eof) :=
  ⟨by decide, .supply .eof (.refl _)⟩

theorem witness_FaultChangesOnlyTheRunState :
    ∃ t, step State.reset = .next t ∧ t.run = .faulted (.fetchOutOfBounds 0#32) := ⟨_, rfl, rfl⟩

theorem witness_FaultsComeOnlyFromTheirCauses :
    demo.run = .running ∧
      runAfter (.sload 3 1 2) [(1, 9#32)] = some (.faulted (.invalidSegment 9#32)) ∧
      runAfter (.sstore 1 2 3) [(1, 9#32)] = some (.faulted (.invalidSegment 9#32)) ∧
      runAfter (.loadp 1 2) [(1, 9#32)] = some (.faulted (.invalidSegment 9#32)) ∧
      runAfter (.sload 3 1 2) [(1, 1#32), (2, 2#32)] = some (.faulted (.segmentOutOfBounds 1#32 2#32)) ∧
      runAfter (.sstore 1 2 3) [(1, 1#32), (2, 2#32)] = some (.faulted (.segmentOutOfBounds 1#32 2#32)) ∧
      runAfter (.unmap 1) [(1, 7#32)] = some (.faulted (.invalidRelease 7#32)) ∧
      runAfter (.div 1 2 3) [] = some (.faulted .divisionByZero) ∧
      runAfter (.out 1) [(1, 256#32)] = some (.faulted (.invalidOutput 256#32)) ∧
      (after (exec (.map 2 3) { demo with capacity := some 4 })).map (fun s => s.run) =
        some (.faulted .resourceExhausted) ∧
      (after (exec (.loadp 1 2) { demoWith [(1, 1#32)] with capacity := some 3 })).map (fun s => s.run) =
        some (.faulted .resourceExhausted) := by decide

theorem witness_StepKeepsInvariant : demo.Inv ∧ ∃ t, step demo = .next t := ⟨demoWith_inv [], _, rfl⟩

theorem witness_BootedRunsKeepInvariant :
    OpMap.wf otherMap = true ∧
      ∃ s t, boot (some [0x70#8, 0#8, 0#8, 0#8]) otherMap [] none false = .next s ∧ Reaches s t ∧ t.run = .halted :=
  ⟨by decide, _, _, rfl, .step (.refl _) rfl, rfl⟩

theorem witness_PcWrapIsUnreachable :
    State.Inv { demo with pc := 0xFFFFFFFF#32 } ∧ ∃ t, step { demo with pc := 0xFFFFFFFF#32 } = .next t :=
  ⟨demo_inv demo.x 0xFFFFFFFF#32 none (by simp), _, rfl⟩

theorem witness_PcAfterEachInstruction :
    demo.run = .running ∧ runAfter .halt [] = some .halted ∧ runAfter (.loadp 0 1) [] = some .running ∧
      runAfter (.inp 0) [] = some .running ∧
      (after (exec (.inp 0) { demo with inPos := 2 })).map (fun s => s.run) = some .running ∧
      runAfter (.add 0 0 0) [] = some .running := by decide

theorem witness_OnlyTheDestinationRegisterChanges :
    regAfter (.cmov 1 2 2) [(2, 9#32)] 1 = some 9#32 ∧ regAfter (.sload 1 2 0) [(2, 1#32)] 1 = some 10#32 ∧
      regAfter (.add 1 2 2) [(2, 9#32)] 1 = some 18#32 ∧ regAfter (.mul 1 2 2) [(2, 9#32)] 1 = some 81#32 ∧
      regAfter (.div 1 2 2) [(2, 9#32)] 1 = some 1#32 ∧ regAfter (.nand 1 2 2) [] 1 = some 0xFFFFFFFF#32 ∧
      regAfter (.loadv 1 7#32) [] 1 = some 7#32 ∧ regAfter (.map 1 2) [] 1 = some 2#32 ∧
      regAfter (.inp 1) [] 1 = some 0x41#32 ∧ demo.reg 1 = 0#32 := by decide

theorem witness_OnlySourceRegistersInfluenceExecution :
    (1 : Reg) ∉ sources (.add 1 2 3) ∧ (7 : Reg) ∉ sources (.sstore 1 2 3) := by decide

theorem witness_HandlesEnterByMapAndLeaveByUnmap :
    Memory.mapped demo.segs 0#32 = true ∧ Memory.mapped demo.segs 2#32 = false ∧ Memory.mapped demo.segs 1#32 = true ∧
      (after (exec (.map 2 3) demo)).map (fun s => Memory.mapped s.segs 2#32) = some true ∧
      (after (exec (.unmap 1) (demoWith [(1, 1#32)]))).map (fun s => Memory.mapped s.segs 1#32) = some false := by decide

theorem witness_SegmentsChangeOnlyByStoreOrLoadp :
    (demoWith [(1, 1#32)]).Inv ∧
      (∃ t, exec (.sstore 1 2 1) (demoWith [(1, 1#32)]) = .next t ∧ Memory.mapped t.segs 1#32 = true) ∧
      (∃ g, Memory.seg? (demoWith [(1, 1#32)]).segs 1#32 = some g) ∧ (1#32 : Word) ≠ 0#32 ∧
      (∃ t, exec (.sstore 0 2 1) (demoWith [(1, 1#32)]) = .next t ∧ Memory.mapped t.segs 0#32 = true) ∧
      ∀ hd target, Instr.sstore 0 2 1 ≠ .loadp hd target :=
  ⟨demoWith_inv _, ⟨_, rfl, by decide⟩, ⟨_, rfl⟩, by decide, ⟨_, rfl, by decide⟩, by simp⟩

theorem witness_ConsoleMovesOnlyByInAndOut :
    (∃ t, exec (.out 0) demo = .next t ∧ t.out ≠ demo.out) ∧ ∃ t, exec (.inp 0) demo = .next t ∧ t.inPos ≠ demo.inPos :=
  ⟨⟨_, rfl, by decide⟩, _, rfl, by decide⟩

theorem witness_OutputHistoryIsNeverRead : ∃ t, step demo = .next t := ⟨_, rfl⟩

theorem witness_AllocatorStateIsSeenOnlyByMap :
    (∀ dst len, Instr.unmap 1 ≠ .map dst len) ∧ ∃ t, exec (.unmap 1) (demoWith [(1, 1#32)]) = .next t :=
  ⟨by simp, _, rfl⟩

theorem witness_StepKeepsParameters : ∃ t, step demo = .next t := ⟨_, rfl⟩

/-! ## Witnesses: the instructions -/

theorem witness_DivWritesQuotientOrFaults :
    ((demoWith [(3, 1#32)]).reg 3).toNat ≠ 0 ∧ (demo.reg 3).toNat = 0 := by decide

theorem witness_LoadvWritesZeroExtendedLiteral : (Instr.loadv 1 0x1FFFFFF#32).wf = true := by decide

theorem witness_SegmentAccess :
    (∃ g, Memory.seg? demo.segs 1#32 = some g ∧ (1#32 : Word).toNat < g.len) ∧ Memory.seg? demo.segs 9#32 = none ∧
      ∃ g, Memory.seg? demo.segs 1#32 = some g ∧ g.len ≤ (2#32 : Word).toNat :=
  ⟨⟨_, rfl, by decide⟩, by decide, _, rfl, by decide⟩

/-- The registers that make SLOAD and SSTORE meet the three clauses of `witness_SegmentAccess`. -/
theorem witness_SloadAndSstoreClauses :
    (demoWith [(1, 1#32), (2, 1#32)]).addressAB 1 2 = (1#32, 1#32) ∧
      (demoWith [(1, 9#32), (2, 1#32)]).addressBC 1 2 = (9#32, 1#32) ∧
      (demoWith [(1, 1#32), (2, 2#32)]).addressBC 1 2 = (1#32, 2#32) ∧
      (demoWith [(1, 1#32), (2, 2#32)]).segs = demo.segs := by decide

theorem witness_MapCreatesZeroFilledSegment :
    State.Inv { demo with capacity := some 5 } ∧
      (∀ cap, some 5 = some cap → Memory.used demo.segs + (demo.reg 3).toNat ≤ cap) ∧
      ∃ u : Word, u ≠ 0#32 ∧ Memory.mapped demo.segs u = false :=
  ⟨demo_inv demo.x demo.pc (some 5) (fun n h => by cases h; decide), fun cap h => by cases h; decide, 2#32, by decide,
    by decide⟩

/-- A table that maps the handles 0 to n - 1, each to a segment of no words. -/
def crowdedSegs (n : Nat) : Memory := (List.range n).map fun k => (k, Segment.zeros 0)

theorem crowdedSegs_used (n : Nat) : Memory.used (crowdedSegs n) = 0 := by
  simp [Memory.used, crowdedSegs, Function.comp_def]

theorem crowdedSegs_mapped {n : Nat} {h : Word} (hl : h.toNat < n) : Memory.mapped (crowdedSegs n) h = true :=
  assocGet_isSome_of_mem (v := Segment.zeros 0) (List.mem_map.mpr ⟨h.toNat, List.mem_range.mpr hl, rfl⟩)

theorem crowdedSegs_wf {n : Nat} (hn : n ≤ Config.handleCount) : Memory.wf (crowdedSegs n) = true := by
  refine (Memory.wf_iff _).mpr ⟨(keysRise_iff _).mpr ?_, fun p hp => ?_⟩
  · simp only [crowdedSegs, List.map_map, Function.comp_def, List.map_id']
    exact List.pairwise_lt_range
  · obtain ⟨k, hk, rfl⟩ := List.mem_map.mp hp
    exact ⟨lt_of_lt_of_le (List.mem_range.mp hk) hn, Segment.wf_zeros (Nat.zero_le _)⟩

/-- A machine in which the handles 0 to n - 1 are mapped, under a policy that is not the reference one. -/
def crowded (n : Nat) : State := { State.reset with segs := crowdedSegs n, alloc := .drawn 0 }

theorem crowded_inv {n : Nat} (h0 : 0 < n) (hn : n ≤ Config.handleCount) : (crowded n).Inv where
  memory := crowdedSegs_wf hn
  program := crowdedSegs_mapped (h := 0#32) h0
  alloc := trivial
  input := Nat.zero_le _
  capacity := rfl
  loaded := by simp [crowded, State.reset]
  opmap := Config.opmap_wf

theorem crowded_noHandleLeft {n : Nat} (hn : n = Config.handleCount) : Memory.handleLeft (crowded n).segs = false := by
  refine Bool.eq_false_iff.mpr fun h => ?_
  obtain ⟨u, -, hu⟩ := (Memory.handleLeft_iff (crowdedSegs_wf hn.le)).mp h
  exact absurd (crowdedSegs_mapped (hn ▸ u.isLt)) (ne_true_of_eq_false hu)

/-- The second condition under which MAP raises `ResourceExhausted`: no handle is left. -/
theorem witness_MapFaultsWithNoHandleLeft :
    ∃ s t : State, s.run = .running ∧ exec (.map 2 3) s = .next t ∧ t.run = .faulted .resourceExhausted :=
  ⟨crowded Config.handleCount, _, rfl,
    exec_of_effect (.mapFault 2 3 _ (State.allocSegment_of_noHandle _ (crowded_noHandleLeft rfl))), rfl⟩

theorem crowded_full {n : Nat} (h0 : 0 < n) (hn : n = Config.handleCount) :
    ∃ s : State, s.Inv ∧ ∀ u : Word, u ≠ 0#32 → Memory.mapped s.segs u = true :=
  ⟨crowded n, crowded_inv h0 hn.le, fun u _ => crowdedSegs_mapped (hn ▸ u.isLt)⟩

theorem witness_MapFaultsWhenResourcesAreExhausted :
    (∃ s : State, s.capacity = some 4 ∧ 4 < Memory.used s.segs + (s.reg 3).toNat) ∧
      ∃ s : State, s.Inv ∧ ∀ u : Word, u ≠ 0#32 → Memory.mapped s.segs u = true :=
  ⟨⟨{ demo with capacity := some 4 }, by decide, by decide⟩, crowded_full (Nat.zero_lt_of_ne_zero (by decide)) rfl⟩

theorem witness_UnmapDestroysTheSegmentOrFaults :
    ((demoWith [(1, 1#32)]).reg 1 ≠ 0#32 ∧
      Memory.mapped (demoWith [(1, 1#32)]).segs ((demoWith [(1, 1#32)]).reg 1) = true) ∧
      demo.reg 1 = 0#32 ∧ Memory.mapped (demoWith [(1, 7#32)]).segs ((demoWith [(1, 7#32)]).reg 1) = false := by decide

theorem witness_LoadpReplacesTheProgramAndJumps :
    (demoWith [(1, 1#32)]).reg 1 ≠ 0#32 ∧
      (∃ g, Memory.seg? demo.segs 1#32 = some g ∧
        (∀ cap, some 4 = some cap → Memory.used demo.segs - Memory.len0 demo.segs + g.len ≤ cap) ∧
        3 < Memory.used demo.segs - Memory.len0 demo.segs + g.len) ∧
      (demo.reg 1 = 0#32 ∧ Memory.mapped demo.segs 0#32 = true) ∧
      Memory.mapped (demoWith [(1, 9#32)]).segs ((demoWith [(1, 9#32)]).reg 1) = false :=
  ⟨by decide, ⟨_, rfl, fun cap h => by cases h; decide, by decide⟩, by decide, by decide⟩

theorem witness_OutEmitsTheByteOrFaults :
    ((demoWith [(1, 255#32)]).reg 1).toNat ≤ 255 ∧ 255 < ((demoWith [(1, 256#32)]).reg 1).toNat := by decide

theorem witness_InDeliversTheNextTokenOrHolds :
    demo.input[demo.inPos]? = some (.byte 0x41#8) ∧ demo.input[({ demo with inPos := 1 } : State).inPos]? = some .eof ∧
      demo.input.length ≤ ({ demo with inPos := 2 } : State).inPos := by decide

theorem witness_SuppliedTokenEndsTheHold :
    ({ demo with inPos := 2 } : State).inPos = demo.input.length ∧ State.reset.inPos = State.reset.input.length := by decide

/-! ## Witnesses: sequences -/

theorem witness_LoadAfterStoreReturnsTheStoredValue :
    (demoWith [(1, 1#32), (2, 1#32), (3, 7#32)]).run = .running ∧
      ∃ t, exec (.sstore 1 2 3) (demoWith [(1, 1#32), (2, 1#32), (3, 7#32)]) = .next t ∧ t.run = .running :=
  ⟨rfl, _, rfl, rfl⟩

theorem witness_StoreIntoProgramIsFetchedNext :
    (demoWith [(5, 1#32)]).run = .running ∧ (demoWith [(5, 1#32)]).reg 0 = 0#32 ∧
      (demoWith [(5, 1#32)]).reg 5 = (demoWith [(5, 1#32)]).pc + 1#32 ∧
      (after (exec (.sstore 0 5 4) (demoWith [(5, 1#32)]))).map (fun s => s.run) = some .running := by decide

theorem witness_ProgramCopyIsIndependent :
    ∃ t, exec (.loadp 1 2) (demoWith [(1, 1#32)]) = .next t ∧ t.run = .running ∧
      (∃ u, exec (.sstore 1 2 3) t = .next u) ∧ t.reg 1 = (demoWith [(1, 1#32)]).reg 1 ∧
      (demoWith [(1, 1#32)]).reg 1 ≠ 0#32 ∧ (∃ u, exec (.sstore 0 2 3) t = .next u) ∧ t.reg 0 = 0#32 :=
  ⟨_, rfl, rfl, ⟨_, rfl⟩, by decide, by decide, ⟨_, rfl⟩, by decide⟩

theorem witness_ReleasedHandleFaultsOnEveryUse :
    ∃ t, exec (.unmap 1) (demoWith [(1, 1#32), (6, 1#32)]) = .next t ∧ t.run = .running ∧
      t.reg 6 = (demoWith [(1, 1#32), (6, 1#32)]).reg 1 := ⟨_, rfl, rfl, by decide⟩

theorem witness_ReferencePolicyPicksMostRecentlyReleased :
    demo.alloc = .reference [] 2 ∧
      (∃ t, exec (.map 2 3) demo = .next t ∧ t.run = .running) ∧
      (∃ t, exec (.unmap 1) (demoWith [(1, 1#32)]) = .next t ∧ t.run = .running) ∧
      ∃ t, exec (.map 2 3) { demo with segs := demo.segs.take 1, alloc := .reference [1#32] 2 } = .next t ∧
        t.run = .running :=
  ⟨rfl, ⟨_, rfl, rfl⟩, ⟨_, rfl, rfl⟩, _, rfl, rfl⟩

theorem witness_ReferencePolicyReissuesTheReleasedHandle :
    (demoWith [(1, 1#32)]).Inv ∧ (demoWith [(1, 1#32)]).alloc.isReference = true ∧
      ∃ t, exec (.unmap 1) (demoWith [(1, 1#32)]) = .next t ∧ t.run = .running ∧
        ∀ cap, (demoWith [(1, 1#32)]).capacity = some cap → Memory.used t.segs + (t.reg 3).toNat ≤ cap :=
  ⟨demoWith_inv _, by decide, _, rfl, rfl, fun cap h => by cases h⟩

theorem witness_OpcodeMapChangesNoSemanticRule :
    (∃ t, exec (.map 2 3) demo = .next t) ∧ ({ demo with opmap := otherMap } : State).run = .running ∧
      OpMap.wf otherMap = true ∧ (Instr.cmov 1 2 3).wf = true ∧
      Memory.read (State.withFetchWord { demo with opmap := otherMap } 32 0xD0000053).segs 0#32 0#32 =
        .ok (encodeWith otherMap (.cmov 1 2 3)) := ⟨⟨_, rfl⟩, rfl, by decide⟩

end Sys2Proof.Tests
end

/-! # The machine invariant

One rule per state operation: which updates keep `State.Inv`. The step lemma (O17) is assembled from them along
`Effect`, and the statements about resets and runs follow. -/

section
namespace Sys2Proof.Machine

/-! ## Rules of the invariant, one per state operation -/

/-- The invariant speaks of neither registers, `pc` nor output, so an update of those keeps it. -/
theorem State.Inv.congr {s t : State} (hs : s.Inv) (segs : t.segs = s.segs) (alloc : t.alloc = s.alloc)
    (capacity : t.capacity = s.capacity) (opmap : t.opmap = s.opmap) (input : t.inPos ≤ t.input.length)
    (loaded : t.run ≠ .faulted .loadFault) : t.Inv where
  memory := segs ▸ hs.memory
  program := segs ▸ hs.program
  alloc := by rw [segs, alloc]; exact hs.alloc
  input := input
  capacity := by
    have fits := (State.fits_iff s _).mp hs.capacity
    rw [State.fits_iff, segs, capacity]
    exact fits
  loaded := loaded
  opmap := opmap ▸ hs.opmap

theorem State.Inv.setReg {s : State} (hs : s.Inv) (i : Reg) (v : Word) : (s.setReg i v).Inv :=
  hs.congr rfl rfl rfl rfl hs.input hs.loaded

theorem State.Inv.advance {s : State} (hs : s.Inv) : s.advance.Inv :=
  hs.congr rfl rfl rfl rfl hs.input hs.loaded

theorem State.Inv.setPc {s : State} (hs : s.Inv) (t : Word) : (s.setPc t).Inv :=
  hs.congr rfl rfl rfl rfl hs.input hs.loaded

theorem State.Inv.setRun {s : State} (hs : s.Inv) {r : RunState} (hr : r ≠ .faulted .loadFault) : (s.setRun r).Inv :=
  hs.congr rfl rfl rfl rfl hs.input hr

theorem State.Inv.fault {s : State} (hs : s.Inv) {c : Cause} (hc : c ≠ .loadFault) : (s.setRun (.faulted c)).Inv :=
  hs.setRun fun e => hc (RunState.faulted.inj e)

theorem State.Inv.emit {s : State} (hs : s.Inv) (b : Byte) : (s.emit b).Inv :=
  hs.congr rfl rfl rfl rfl hs.input hs.loaded

theorem State.Inv.aluResult {s : State} (hs : s.Inv) (a : Reg) (v : Word) : (aluResult a v s).Inv :=
  (hs.setReg a v).advance

theorem State.inPos_lt_of_nextToken {s : State} {k : Token} (hk : s.nextToken = some k) : s.inPos < s.input.length :=
  (List.getElem?_eq_some_iff.mp hk).1

/-- Where a token is there to consume, no more is consumed than was supplied (R141). -/
theorem State.Inv.consumeToken {s : State} (hs : s.Inv) {k : Token} (hk : s.nextToken = some k) : s.consumeToken.Inv :=
  hs.congr rfl rfl rfl rfl (State.inPos_lt_of_nextToken hk) hs.loaded

theorem State.Inv.supplyToken {s : State} (hs : s.Inv) (k : Token) : (s.supplyToken k).Inv := by
  refine hs.congr rfl rfl rfl rfl ?_ hs.loaded
  have := hs.input
  simp only [State.supplyToken_inPos, State.supplyToken_input, List.length_append]
  omega

/-- What an update of the segment table has to meet. -/
theorem State.Inv.setSegs {s : State} (hs : s.Inv) {m : Memory} (wf : Memory.wf m = true)
    (program : Memory.mapped m 0#32 = true) (agrees : s.alloc.agrees m) (fits : s.fits (Memory.used m) = true) :
    (s.setSegs m).Inv :=
  { hs with memory := wf, program := program, alloc := agrees, capacity := fits }

/-- What an update of the segment table together with the allocator has to meet. -/
theorem State.Inv.setSegs_setAlloc {s : State} (hs : s.Inv) {m : Memory} {al : Alloc} (wf : Memory.wf m = true)
    (program : Memory.mapped m 0#32 = true) (agrees : al.agrees m) (fits : s.fits (Memory.used m) = true) :
    ((s.setSegs m).setAlloc al).Inv :=
  { hs with memory := wf, program := program, alloc := agrees, capacity := fits }

/-! ## Memory operations -/

theorem Memory.mapped_after_write {m m' : Memory} {h o v : Word} (hw : Memory.write m h o v = .ok m') (h' : Word) :
    Memory.mapped m' h' = Memory.mapped m h' := by
  rw [Memory.mapped_eq_lengthAt, Memory.mapped_eq_lengthAt, Memory.lengthAt_after_write hw]

/-- A new segment adds its length to the words in use (R47). -/
theorem Memory.used_set_of_unmapped {m : Memory} {h : Word} (g : Segment) (hm : Memory.wf m = true)
    (hu : Memory.mapped m h = false) : Memory.used (assocSet h.toNat g m) = Memory.used m + g.len := by
  have hget : assocGet h.toNat m = none := (Memory.mapped_eq_false_iff m h).mp hu
  simpa [hget] using Memory.used_set h.toNat g ((Memory.wf_iff m).mp hm).1

theorem State.Inv.write {s : State} (hs : s.Inv) {h o v : Word} {m : Memory}
    (hw : Memory.write s.segs h o v = .ok m) : (s.setSegs m).Inv :=
  hs.setSegs (Memory.wf_write hs.memory hw) (by rw [Memory.mapped_after_write hw]; exact hs.program)
    (Alloc.agrees_congr (Memory.mapped_after_write hw) hs.alloc) (by rw [Memory.used_write hs.memory hw]; exact hs.capacity)

theorem State.Inv.allocSegment {s u : State} (hs : s.Inv) {n h : Word} (e : s.allocSegment n = .ok (h, u)) : u.Inv := by
  obtain ⟨hfit, hleft, rfl, rfl⟩ := State.allocSegment_ok e
  obtain ⟨-, hunmapped⟩ := Alloc.pick_contract hs.memory hs.alloc hleft
  refine hs.setSegs_setAlloc (Memory.wf_set _ hs.memory (Segment.wf_zeros (Nat.le_of_lt_succ n.isLt))) ?_
    (Alloc.agrees_after_pick _ hs.memory hs.alloc hleft) ?_
  · rw [Memory.mapped_set, hs.program, Bool.or_true]
  · rw [Memory.used_set_of_unmapped _ hs.memory hunmapped]
    exact hfit

theorem State.Inv.freeSegment {s u : State} (hs : s.Inv) {h : Word} (e : s.freeSegment h = .ok u) : u.Inv := by
  obtain ⟨h0, hmapped, rfl⟩ := State.freeSegment_ok e
  refine hs.setSegs_setAlloc (Memory.wf_erase _ hs.memory) ?_ (Alloc.agrees_after_release h0 hmapped hs.alloc)
    (State.fits_mono hs.capacity (Memory.used_erase_le _ _))
  rw [Memory.mapped_erase, hs.program, decide_eq_true (Ne.symm h0), Bool.and_true]

/-- The copy of LOADP replaces a mapped segment, so it maps nothing new, and its check counts exactly the words in
use afterwards (R125). -/
theorem State.Inv.replaceProgram {s u : State} (hs : s.Inv) {h : Word} (e : s.replaceProgram h = .ok u) : u.Inv := by
  obtain ⟨g, hg, ⟨-, rfl⟩ | ⟨-, hfit, rfl⟩⟩ := State.replaceProgram_ok e
  · exact hs
  · have hmapped : ∀ k, Memory.mapped (assocSet 0 g s.segs) k = Memory.mapped s.segs k := by
      intro k
      rw [Memory.mapped_set_zero]
      by_cases hk : k = 0#32
      · simp [hk, hs.program]
      · simp [hk]
    refine hs.setSegs (Memory.wf_set 0#32 hs.memory (Memory.seg_wf hs.memory hg)) ?_
      (Alloc.agrees_congr hmapped hs.alloc) ?_
    · rw [hmapped]; exact hs.program
    · rw [Memory.used_set_zero g hs.memory]; exact hfit

/-! ## No instruction raises `LoadFault` (R181) -/

theorem Memory.read_error_ne_loadFault {m : Memory} {h o : Word} {c : Cause} (e : Memory.read m h o = .error c) :
    c ≠ .loadFault := by
  rcases Memory.read_error e with ⟨-, rfl⟩ | ⟨_, -, -, rfl⟩ <;> exact Cause.noConfusion

theorem State.allocSegment_error_ne_loadFault {s : State} {n : Word} {c : Cause} (e : s.allocSegment n = .error c) :
    c ≠ .loadFault := by
  obtain ⟨rfl, -⟩ := State.allocSegment_error e
  exact Cause.noConfusion

theorem State.freeSegment_error_ne_loadFault {s : State} {h : Word} {c : Cause} (e : s.freeSegment h = .error c) :
    c ≠ .loadFault := by
  obtain ⟨rfl, -⟩ := State.freeSegment_error e
  exact Cause.noConfusion

theorem State.replaceProgram_error_ne_loadFault {s : State} {h : Word} {c : Cause}
    (e : s.replaceProgram h = .error c) : c ≠ .loadFault := by
  rcases State.replaceProgram_error e with ⟨-, rfl⟩ | ⟨_, -, -, rfl, -⟩ <;> exact Cause.noConfusion

/-! ## Every execution and every step keeps the invariant -/

theorem Effect.keeps_inv {i : Instr} {s t : State} (hs : s.Inv) (e : Effect s i t) : t.Inv := by
  cases e with
  | sloadFault a b c k hk => exact hs.fault (Memory.read_error_ne_loadFault hk)
  | sstoreFault a b c k hk => exact hs.fault (Memory.read_error_ne_loadFault hk)
  | divFault a b c _ => exact hs.fault Cause.noConfusion
  | mapFault b c k hk => exact hs.fault (State.allocSegment_error_ne_loadFault hk)
  | unmapFault c k hk => exact hs.fault (State.freeSegment_error_ne_loadFault hk)
  | outFault c _ => exact hs.fault Cause.noConfusion
  | loadpFault b c k hk => exact hs.fault (State.replaceProgram_error_ne_loadFault hk)
  | cmovKeep a b c _ => exact hs.advance
  | sload a b c v _ => exact (hs.setReg a v).advance
  | sstore a b c m hm => exact (hs.write hm).advance
  | cmovMove a | add a | mul a | div a | nand a | loadv a => exact hs.aluResult a _
  | halt => exact hs.setRun RunState.noConfusion
  | map b c h u hu => exact ((hs.allocSegment hu).setReg b h).advance
  | unmap c u hu => exact (hs.freeSegment hu).advance
  | out c _ => exact (hs.emit _).advance
  | inpHold c _ => exact hs
  | inp c k hk => exact ((hs.consumeToken hk).setReg c k.word).advance
  | loadp b c u hu => exact (hs.replaceProgram hu).setPc _

theorem step_keeps_inv {s t : State} (hs : s.Inv) (h : step s = .next t) : t.Inv := by
  obtain ⟨-, ⟨rfl, -⟩ | ⟨w, v, -, -, rfl⟩ | ⟨w, i, -, -, he⟩⟩ := step_next h
  · exact hs.fault Cause.noConfusion
  · exact hs.fault Cause.noConfusion
  · exact (exec_effect he).keeps_inv hs

theorem Reaches.keeps_inv {s t : State} (hr : Reaches s t) (hs : s.Inv) : t.Inv := by
  induction hr with
  | refl => exact hs
  | step _ h ih => exact step_keeps_inv ih h
  | supply k _ ih => exact ih.supplyToken k

/-! ## Reset -/

theorem Memory.mapped_singleton_zero (g : Segment) (h : Word) : Memory.mapped [(0, g)] h = decide (h = 0#32) := by
  have e : ([(0, g)] : Memory) = assocSet 0 g [] := rfl
  rw [e, Memory.mapped_set_zero]
  simp [Memory.mapped, Memory.seg?]

/-- Either policy, as reset leaves it, agrees with a table that maps handle 0 alone (R33, R49). -/
theorem Alloc.initial_agrees (reference : Bool) (g : Segment) : (Alloc.initial reference).agrees [(0, g)] := by
  cases reference with
  | false => trivial
  | true =>
    refine ⟨by decide, by decide, List.nodup_nil, by simp, fun h hm => ?_, fun h h0 hlt => ?_⟩
    · rw [Memory.mapped_singleton_zero, decide_eq_true_eq] at hm
      subst hm
      decide
    · exact absurd (BitVec.eq_of_toNat_eq (Nat.lt_one_iff.mp hlt)) h0

theorem State.resetWith_inv {image : List Word} {opmap : OpMap} (input : List Token) {capacity : Option Nat}
    (reference : Bool) (hmap : OpMap.wf opmap = true) (himage : image.length ≤ Config.maxSegmentWords)
    (hcap : ∀ cap, capacity = some cap → image.length ≤ cap) :
    (State.resetWith image opmap input capacity (Alloc.initial reference)).Inv where
  memory := Memory.wf_set (m := []) 0#32 rfl (Segment.wf_ofWords himage)
  program := Memory.mapped_singleton_zero _ _
  alloc := Alloc.initial_agrees reference _
  input := Nat.zero_le _
  capacity := (State.fits_iff _ _).mpr hcap
  loaded := RunState.noConfusion
  opmap := hmap

theorem bootWords_next {image : List Word} {opmap : OpMap} {input : List Token} {capacity : Option Nat}
    {reference : Bool} {s : State} (h : bootWords image opmap input capacity reference = .next s) :
    image.length ≤ Config.maxSegmentWords ∧ (∀ cap, capacity = some cap → image.length ≤ cap) ∧
      s = State.resetWith image opmap input capacity (Alloc.initial reference) := by
  simp only [bootWords] at h
  split at h
  · cases h
  · next hok =>
    obtain ⟨hwf, hfit⟩ := not_or.mp hok
    cases h
    exact ⟨of_decide_eq_true (Bool.eq_true_of_not_eq_false hwf),
      (State.fits_iff _ _).mp (Bool.eq_true_of_not_eq_false hfit), rfl⟩

/-- A reset from a byte stream that succeeds is the reset with the words of the stream (R203). -/
theorem boot_next {file : Option (List Byte)} {opmap : OpMap} {input : List Token} {capacity : Option Nat}
    {reference : Bool} {s : State} (h : boot file opmap input capacity reference = .next s) :
    ∃ bytes image, file = some bytes ∧ imageOfBytes bytes = some image ∧
      bootWords image opmap input capacity reference = .next s := by
  unfold boot at h
  split at h
  · cases h
  · next bytes =>
    split at h
    · cases h
    · next image himage => exact ⟨bytes, image, rfl, himage, h⟩

theorem boot_inv {file : Option (List Byte)} {opmap : OpMap} {input : List Token} {capacity : Option Nat}
    {reference : Bool} {s : State} (hmap : OpMap.wf opmap = true)
    (h : boot file opmap input capacity reference = .next s) : s.Inv := by
  obtain ⟨bytes, image, -, -, hw⟩ := boot_next h
  obtain ⟨himage, hcap, rfl⟩ := bootWords_next hw
  exact State.resetWith_inv input reference hmap himage hcap

/-! ## The statements -/

/-- Settles O17: the fault of fetch or decode keeps the invariant, and so does every way an execution ends. -/
theorem stepKeepsInvariant : Obligations.StepKeepsInvariant :=
  fun _ _ hs h => step_keeps_inv hs h

/-- Settles O10: a reset that succeeds has checked the length of its image against both bounds. -/
theorem everyBootMeetsInvariant : Obligations.EveryBootMeetsInvariant :=
  fun _ _ _ _ _ _ hmap h => boot_inv hmap h

/-- Settles O18, by induction on the run from a reset, which meets the invariant. -/
theorem bootedRunsKeepInvariant : Obligations.BootedRunsKeepInvariant :=
  fun _ _ _ _ _ _ _ hmap h hr => hr.keeps_inv (boot_inv hmap h)

/-- Settles O9: `State.reset` is the reset with the empty image and the default parameters. -/
theorem resetMeetsInvariant : Obligations.ResetMeetsInvariant :=
  State.resetWith_inv (image := []) (capacity := none) [] true Config.opmap_wf (Nat.zero_le _) nofun

end Sys2Proof.Machine
end

/-! # What a step and an execution change

That a step is defined from every running state, and the frame of an execution field by field: `pc`, registers,
segments and parameters. -/

section
namespace Sys2Proof.Machine

/-! ## A step is defined exactly while running -/

theorem orRaise_total {α : Type} (r : Except Cause α) (s : State) (k : α → State) : ∃ t, orRaise r s k = .next t := by
  cases r with
  | error c => exact ⟨_, rfl⟩
  | ok v => exact ⟨_, rfl⟩

/-- No execution ends without a next state: a fault, a halt and a held IN are next states too. -/
theorem exec_total (i : Instr) (s : State) : ∃ t, exec i s = .next t := by
  cases i with
  | sload | sstore | div | map | unmap | out | loadp => exact orRaise_total _ _ _
  | cmov | add | mul | nand | halt | loadv => exact ⟨_, rfl⟩
  | inp c =>
    cases hk : s.nextToken with
    | none => exact ⟨_, exec_of_effect (.inpHold c hk)⟩
    | some k => exact ⟨_, exec_of_effect (.inp c k hk)⟩

theorem step_of_fetchDecode_error {s : State} {c : Cause} (hr : s.run = .running) (hf : s.fetchDecode = .error c) :
    step s = .next (s.setRun (.faulted c)) := by
  simp [step, hr, hf]

theorem step_of_fetchDecode_ok {s : State} {i : Instr} (hr : s.run = .running) (hf : s.fetchDecode = .ok i) :
    step s = exec i s := by
  simp [step, hr, hf]

/-- Settles O13: from `Running`, either the fetch or the decoder faults, or an instruction is executed, and each answers
a next state. -/
theorem stepIsDefinedExactlyWhileRunning : Obligations.StepIsDefinedExactlyWhileRunning := by
  intro s
  constructor
  · rintro ⟨t, h⟩
    exact (step_next h).1
  · intro hr
    cases hf : s.fetchDecode with
    | error c => exact ⟨_, step_of_fetchDecode_error hr hf⟩
    | ok i =>
      rw [step_of_fetchDecode_ok hr hf]
      exact exec_total i s

/-! ## pc -/

/-- A fetch succeeds below the length of segment 0, which is a 32-bit number (R25). -/
theorem State.Inv.pc_lt_of_fetch {s : State} (hs : s.Inv) {w : Word} (hf : s.fetch = .ok w) :
    s.pc.toNat < Config.maxSegmentWords := by
  obtain ⟨g, hg, hlt, -⟩ := (Memory.read_ok_iff _ _ _ _).mp ((State.fetch_ok_iff s w).mp hf)
  exact lt_of_lt_of_le hlt (Memory.seg_len_le hs.memory hg)

/-- Settles O19: no fetch succeeds at the largest `pc`, so the step is the fault of the fetch. -/
theorem pcWrapIsUnreachable : Obligations.PcWrapIsUnreachable := by
  intro s t hs h hpc
  have no_fetch : ∀ w, s.fetch ≠ .ok w := by
    intro w hf
    have hlt := hs.pc_lt_of_fetch hf
    rw [hpc] at hlt
    exact absurd hlt (by decide)
  obtain ⟨-, ⟨rfl, -⟩ | ⟨w, v, hf, -, -⟩ | ⟨w, i, hf, -, -⟩⟩ := step_next h
  · rw [hpc]
    exact faultedWith_setRun _ s
  · exact absurd hf (no_fetch w)
  · exact absurd hf (no_fetch w)

theorem State.replaceProgram_frame {s u : State} {h : Word} (e : s.replaceProgram h = .ok u) :
    ∃ m, u = s.setSegs m := by
  obtain ⟨g, -, ⟨-, rfl⟩ | ⟨-, -, rfl⟩⟩ := State.replaceProgram_ok e
  · exact ⟨u.segs, rfl⟩
  · exact ⟨_, rfl⟩

theorem State.nextToken_eq_none_iff (s : State) : s.nextToken = none ↔ s.input.length ≤ s.inPos :=
  List.getElem?_eq_none_iff

/-- Settles O20, by the ways an execution ends. -/
theorem pcAfterEachInstruction : Obligations.PcAfterEachInstruction := by
  intro i s t hr h
  cases exec_effect h with
  | sloadFault | sstoreFault | divFault | mapFault | unmapFault | outFault | loadpFault | halt =>
    exact ⟨fun _ => rfl, nofun⟩
  | cmovKeep | cmovMove | sload | sstore | add | mul | div | nand | out | loadv =>
    exact ⟨absurd hr, fun _ => State.advance_pc_toNat _⟩
  | map b c p u hu =>
    obtain ⟨-, -, -, rfl⟩ := State.allocSegment_ok hu
    exact ⟨absurd hr, fun _ => State.advance_pc_toNat _⟩
  | unmap c u hu =>
    obtain ⟨-, -, rfl⟩ := State.freeSegment_ok hu
    exact ⟨absurd hr, fun _ => State.advance_pc_toNat _⟩
  | inpHold c hk => exact ⟨absurd hr, fun _ => .inr ⟨(State.nextToken_eq_none_iff s).mp hk, rfl⟩⟩
  | inp c k hk => exact ⟨absurd hr, fun _ => .inl ⟨State.inPos_lt_of_nextToken hk, State.advance_pc_toNat _⟩⟩
  | loadp b c u hu =>
    obtain ⟨m, rfl⟩ := State.replaceProgram_frame hu
    exact ⟨absurd hr, fun _ => rfl⟩

/-! ## Registers -/

theorem setReg_reg_of_destination {i : Instr} {a r : Reg} (s : State) (v : Word) (hd : destination i = some a)
    (hr : destination i ≠ some r) : (s.setReg a v).reg r = s.reg r :=
  State.setReg_reg_of_ne s v fun e => hr (e ▸ hd)

/-- An execution changes no register but its destination (R22). -/
theorem Effect.reg_eq {i : Instr} {s t : State} (e : Effect s i t) {r : Reg} (hr : destination i ≠ some r) :
    t.reg r = s.reg r := by
  cases e with
  | sloadFault | sstoreFault | divFault | mapFault | unmapFault | outFault | loadpFault => rfl
  | cmovKeep | sstore | halt | out | inpHold => rfl
  | sload | cmovMove | add | mul | div | nand | loadv => exact setReg_reg_of_destination s _ rfl hr
  | inp => exact setReg_reg_of_destination s.consumeToken _ rfl hr
  | map b c p u hu =>
    obtain ⟨-, -, -, rfl⟩ := State.allocSegment_ok hu
    exact setReg_reg_of_destination _ _ rfl hr
  | unmap c u hu =>
    obtain ⟨-, -, rfl⟩ := State.freeSegment_ok hu
    rfl
  | loadp b c u hu =>
    obtain ⟨m, rfl⟩ := State.replaceProgram_frame hu
    rfl

/-- Settles O21: the register that changed is the instruction's `destination`, which the cases read off. -/
theorem onlyTheDestinationRegisterChanges : Obligations.OnlyTheDestinationRegisterChanges := by
  intro i s t r h changed
  have hdest : destination i = some r := by
    by_contra hne
    exact changed ((exec_effect h).reg_eq hne)
  cases i with
  | cmov | sload | add | mul | div | nand | loadv | map | inp => exact (Option.some.inj hdest).symm
  | sstore | halt | unmap | out | loadp => exact nomatch hdest

/-! ## Parameters -/

theorem Alloc.pick_isReference (al : Alloc) (m : Memory) : (al.pick m).2.isReference = al.isReference := by
  cases al with
  | drawn n => rfl
  | reference free next => cases free <;> rfl

theorem Alloc.release_isReference (al : Alloc) (h : Word) : (al.release h).isReference = al.isReference := by
  cases al <;> rfl

theorem Effect.parametersKept {i : Instr} {s t : State} (e : Effect s i t) :
    parametersKept s t ∧ t.alloc.isReference = s.alloc.isReference := by
  cases e with
  | sloadFault | sstoreFault | divFault | mapFault | unmapFault | outFault | loadpFault => exact ⟨⟨rfl, rfl, rfl⟩, rfl⟩
  | cmovKeep | cmovMove | sload | sstore | add | mul | div | nand | halt | out | inpHold | inp | loadv =>
    exact ⟨⟨rfl, rfl, rfl⟩, rfl⟩
  | map b c p u hu =>
    obtain ⟨-, -, -, rfl⟩ := State.allocSegment_ok hu
    exact ⟨⟨rfl, rfl, rfl⟩, Alloc.pick_isReference _ _⟩
  | unmap c u hu =>
    obtain ⟨-, -, rfl⟩ := State.freeSegment_ok hu
    exact ⟨⟨rfl, rfl, rfl⟩, Alloc.release_isReference _ _⟩
  | loadp b c u hu =>
    obtain ⟨m, rfl⟩ := State.replaceProgram_frame hu
    exact ⟨⟨rfl, rfl, rfl⟩, rfl⟩

/-- Settles O28: neither a fault of fetch or decode nor an execution touches a parameter, and a policy's next state is
of its own kind. -/
theorem stepKeepsParameters : Obligations.StepKeepsParameters := by
  intro s t h
  obtain ⟨-, ⟨rfl, -⟩ | ⟨w, v, -, -, rfl⟩ | ⟨w, i, -, -, he⟩⟩ := step_next h
  · exact ⟨⟨rfl, rfl, rfl⟩, rfl⟩
  · exact ⟨⟨rfl, rfl, rfl⟩, rfl⟩
  · exact (exec_effect he).parametersKept

/-! ## Segments -/

/-- The ways an execution from `s` to `t` leaves the segment table: as it was, or changed under one handle by the one
instruction that changes it so. -/
inductive SegsChange (s t : State) : Instr → Prop where
  | kept (i : Instr) : t.segs = s.segs → SegsChange s t i
  | stored (hd off v : Reg) : Memory.write s.segs (s.reg hd) (s.reg off) (s.reg v) = .ok t.segs →
      SegsChange s t (.sstore hd off v)
  | created (dst len : Reg) : Memory.handleLeft s.segs = true → t.reg dst = (s.alloc.pick s.segs).1 →
      t.segs = assocSet (t.reg dst).toNat (Segment.zeros (s.reg len).toNat) s.segs → SegsChange s t (.map dst len)
  | destroyed (c : Reg) : s.reg c ≠ 0#32 → t.segs = assocErase (s.reg c).toNat s.segs → SegsChange s t (.unmap c)
  | copied (hd target : Reg) (g : Segment) : t.segs = assocSet 0 g s.segs → SegsChange s t (.loadp hd target)

theorem Effect.segsChange {i : Instr} {s t : State} (e : Effect s i t) : SegsChange s t i := by
  cases e with
  | sloadFault | sstoreFault | divFault | mapFault | unmapFault | outFault | loadpFault => exact .kept _ rfl
  | cmovKeep | cmovMove | sload | add | mul | div | nand | halt | out | inpHold | inp | loadv => exact .kept _ rfl
  | sstore a b c m hm => exact .stored a b c hm
  | map b c p u hu =>
    obtain ⟨-, hleft, rfl, rfl⟩ := State.allocSegment_ok hu
    exact .created b c hleft (by simp) (by simp)
  | unmap c u hu =>
    obtain ⟨h0, -, rfl⟩ := State.freeSegment_ok hu
    exact .destroyed c h0 rfl
  | loadp b c u hu =>
    obtain ⟨g, -, ⟨-, rfl⟩ | ⟨-, -, rfl⟩⟩ := State.replaceProgram_ok hu
    · exact .kept _ rfl
    · exact .copied b c g rfl

/-- Whether a handle is mapped changes only by a MAP that returns it or an UNMAP that names it (R31). -/
theorem SegsChange.mapped_cases {i : Instr} {s t : State} (e : SegsChange s t i)
    (h0 : Memory.mapped s.segs 0#32 = true) (h : Word) :
    Memory.mapped t.segs h = Memory.mapped s.segs h ∨
      (∃ dst len, i = .map dst len ∧ t.reg dst = h ∧ Memory.mapped t.segs h = true) ∨
      ∃ c, i = .unmap c ∧ s.reg c = h ∧ h ≠ 0#32 ∧ Memory.mapped t.segs h = false := by
  cases e with
  | kept _ hk => exact .inl (by rw [hk])
  | stored hd off v hw => exact .inl (Memory.mapped_after_write hw h)
  | created dst len _ _ hset =>
    rw [hset, Memory.mapped_set]
    by_cases hh : h = t.reg dst
    · exact .inr (.inl ⟨dst, len, rfl, hh.symm, by simp [hh]⟩)
    · exact .inl (by simp [hh])
  | destroyed c hc herase =>
    rw [herase, Memory.mapped_erase]
    by_cases hh : h = s.reg c
    · exact .inr (.inr ⟨c, rfl, hh.symm, hh ▸ hc, by simp [hh]⟩)
    · exact .inl (by simp [hh])
  | copied hd target g hset =>
    rw [hset, Memory.mapped_set_zero]
    by_cases hh : h = 0#32
    · exact .inl (by simp [hh, h0])
    · exact .inl (by simp [hh])

/-- Settles O23: where an execution changes whether the handle is mapped, it is that MAP or that UNMAP. -/
theorem handlesEnterByMapAndLeaveByUnmap : Obligations.HandlesEnterByMapAndLeaveByUnmap := by
  intro i s t h h0 he
  rcases (exec_effect he).segsChange.mapped_cases h0 h with
    hsame | ⟨dst, len, hi, hdst, hin⟩ | ⟨c, hi, hc, hne, hout⟩
  · rw [hsame]
    exact ⟨fun hf ht => absurd ht (ne_true_of_eq_false hf), fun ht hf => absurd ht (ne_true_of_eq_false hf)⟩
  · exact ⟨fun _ _ => ⟨dst, len, hi, hdst⟩, fun _ hf => absurd hin (ne_true_of_eq_false hf)⟩
  · exact ⟨fun _ ht => absurd ht (ne_true_of_eq_false hout), fun _ _ => ⟨hne, c, hi, hc⟩⟩

theorem Memory.seg?_after_write {m m' : Memory} {h o v : Word} (hw : Memory.write m h o v = .ok m') {h' : Word}
    (hne : h' ≠ h) : Memory.seg? m' h' = Memory.seg? m h' := by
  obtain ⟨g, -, -, rfl⟩ := (Memory.write_ok_iff m h o v m').mp hw
  rw [Memory.seg?_set, if_neg hne]

theorem Memory.lengthAt_of_seg? {m : Memory} {h : Word} {g : Segment} (hg : Memory.seg? m h = some g) :
    Memory.lengthAt m h = some g.len := by
  simp [Memory.lengthAt, hg]

/-- What becomes of a mapped segment (R30). MAP leaves it alone, because the handle picked was unmapped (R48). -/
theorem SegsChange.seg?_cases {i : Instr} {s t : State} (e : SegsChange s t i) (hs : s.Inv) {h : Word} {g : Segment}
    (hg : Memory.seg? s.segs h = some g) :
    Memory.seg? t.segs h = some g ∨
      (∃ hd off v, i = .sstore hd off v ∧ s.reg hd = h ∧ Memory.lengthAt t.segs h = some g.len) ∨
      (∃ hd target, i = .loadp hd target ∧ h = 0#32) ∨
      ∃ c, i = .unmap c ∧ s.reg c = h ∧ Memory.mapped t.segs h = false := by
  cases e with
  | kept _ hk => exact .inl (by rw [hk, hg])
  | stored hd off v hw =>
    by_cases hh : h = s.reg hd
    · have hlen : Memory.lengthAt t.segs h = some g.len := by
        rw [Memory.lengthAt_after_write hw, Memory.lengthAt_of_seg? hg]
      exact .inr (.inl ⟨hd, off, v, rfl, hh.symm, hlen⟩)
    · exact .inl (by rw [Memory.seg?_after_write hw hh, hg])
  | created dst len hleft hpick hset =>
    have hne : h ≠ t.reg dst := by
      intro hh
      have hunmapped := (Alloc.pick_contract hs.memory hs.alloc hleft).2
      rw [← hpick, ← hh] at hunmapped
      exact ne_true_of_eq_false hunmapped (Memory.mapped_of_seg? hg)
    exact .inl (by rw [hset, Memory.seg?_set, if_neg hne, hg])
  | destroyed c _ herase =>
    by_cases hh : h = s.reg c
    · exact .inr (.inr (.inr ⟨c, rfl, hh.symm, by rw [herase, Memory.mapped_erase]; simp [hh]⟩))
    · exact .inl (by rw [herase, Memory.seg?_erase, if_neg hh, hg])
  | copied hd target g' hset =>
    by_cases hh : h = 0#32
    · exact .inr (.inr (.inl ⟨hd, target, rfl, hh⟩))
    · exact .inl (by rw [hset, Memory.seg?_set_zero, if_neg hh, hg])

/-- Settles O24, by what becomes of the segment; the length is kept in every case but LOADP and UNMAP. -/
theorem segmentsChangeOnlyByStoreOrLoadp : Obligations.SegmentsChangeOnlyByStoreOrLoadp := by
  intro i s t h g hs he hg
  rcases (exec_effect he).segsChange.seg?_cases hs hg with
    hsame | ⟨hd, off, v, hi, hh, hlen⟩ | ⟨hd, target, hi, hh⟩ | ⟨c, hi, hh, hout⟩
  · exact ⟨.inl hsame, fun _ _ => Memory.lengthAt_of_seg? hsame⟩
  · exact ⟨.inr (.inl ⟨hd, off, v, hi, hh⟩), fun _ _ => hlen⟩
  · refine ⟨.inr (.inr (.inl ⟨hd, target, hi, hh⟩)), fun hor _ => ?_⟩
    rcases hor with hne | hnot
    · exact absurd hh hne
    · exact absurd hi (hnot hd target)
  · exact ⟨.inr (.inr (.inr ⟨c, hi, hh⟩)), fun _ hin => absurd hin (ne_true_of_eq_false hout)⟩

end Sys2Proof.Machine
end

/-! # What an execution cannot see

One simulation gives the three noninterference statements: replace, in the state before, the registers an instruction
does not read, the allocator state (unless it is a MAP) and the output history; the execution then ends the same way
and the replaced parts are carried along. -/

section
namespace Sys2Proof.Machine

/-- The state with other registers, another allocator state, and bytes put before its output. -/
def State.disguise (s : State) (x : Vector Word 8) (al : Alloc) (earlier : List Byte) : State :=
  { s with x := x, alloc := al, out := earlier ++ s.out }

section
variable (s : State) (x : Vector Word 8) (al : Alloc) (earlier : List Byte)

/-! ## What a disguise leaves, and how updates pass through it -/

@[simp] theorem State.disguise_segs : (s.disguise x al earlier).segs = s.segs := rfl

/-- Overwriting one register is a disguise. -/
theorem State.setReg_eq_disguise (r : Reg) (v : Word) : s.setReg r v = s.disguise (s.x.set r v) s.alloc [] := rfl

/-- So is replacing the allocator state. -/
theorem State.withAlloc_eq_disguise : { s with alloc := al } = s.disguise s.x al [] := rfl

/-- So is a longer output history. -/
theorem State.withOut_eq_disguise : { s with out := earlier ++ s.out } = s.disguise s.x s.alloc earlier := rfl

theorem State.emit_disguise (b : Byte) :
    (s.disguise x al earlier).emit b = (s.emit b).disguise x al earlier := by
  simp [State.emit, State.disguise]

theorem State.replaceProgram_disguise_ok {h : Word} {u : State} (e : s.replaceProgram h = .ok u) :
    (s.disguise x al earlier).replaceProgram h = .ok (u.disguise x al earlier) := by
  obtain ⟨g, hg, ⟨rfl, rfl⟩ | ⟨h0, hfit, rfl⟩⟩ := State.replaceProgram_ok e
  · exact State.replaceProgram_of_zero (Memory.mapped_of_seg? hg)
  · exact State.replaceProgram_of_fit h0 hg hfit

theorem State.replaceProgram_disguise_error {h : Word} {c : Cause} (e : s.replaceProgram h = .error c) :
    (s.disguise x al earlier).replaceProgram h = .error c := by
  rcases State.replaceProgram_error e with ⟨hg, rfl⟩ | ⟨g, hg, h0, rfl, hfit⟩
  · exact State.replaceProgram_of_unmapped hg
  · exact State.replaceProgram_of_unfit h0 hg hfit

/-- Whether UNMAP may release a handle does not depend on the allocator state. -/
theorem State.freeSegment_disguise_ok {h : Word} {u : State} (e : s.freeSegment h = .ok u) :
    (s.disguise x al earlier).freeSegment h = .ok (u.disguise x (al.release h) earlier) := by
  obtain ⟨h0, hmapped, rfl⟩ := State.freeSegment_ok e
  exact State.freeSegment_eq h0 hmapped

theorem State.freeSegment_disguise_error {h : Word} {c : Cause} (e : s.freeSegment h = .error c) :
    (s.disguise x al earlier).freeSegment h = .error c := by
  obtain ⟨rfl, hbad⟩ := State.freeSegment_error e
  exact State.freeSegment_of_bad hbad

/-- MAP takes the handle of the allocator state, so here that state is kept. -/
theorem State.allocSegment_disguise_ok {n h : Word} {u : State} (e : s.allocSegment n = .ok (h, u)) :
    (s.disguise x s.alloc earlier).allocSegment n = .ok (h, u.disguise x u.alloc earlier) := by
  obtain ⟨hfit, hleft, rfl, rfl⟩ := State.allocSegment_ok e
  exact State.allocSegment_eq hfit hleft

theorem State.allocSegment_disguise_error {n : Word} {c : Cause} (e : s.allocSegment n = .error c) :
    (s.disguise x al earlier).allocSegment n = .error c := by
  obtain ⟨rfl, hunfit | hnone⟩ := State.allocSegment_error e
  · exact State.allocSegment_of_unfit hunfit
  · exact State.allocSegment_of_noHandle n hnone

end

/-! ## The simulation -/

/-- Where two register files agree, they agree after the same write to both. -/
theorem getElem_set_eq {x y : Vector Word 8} {q : Reg} (a : Reg) (v : Word) (h : x[q] = y[q]) :
    (x.set a v)[q] = (y.set a v)[q] := by
  by_cases hq : a.val = q.val
  · simp [hq]
  · simpa [Vector.getElem_set_ne _ _ hq] using h

/-- How an execution from a disguised state ends: as the undisguised one does, with the registers still equal where
they were, and with the allocator state equal if it was. -/
def EndsAlike (i : Instr) (s t : State) (x : Vector Word 8) (al : Alloc) (earlier : List Byte) : Prop :=
  ∃ x' al', Effect (s.disguise x al earlier) i (t.disguise x' al' earlier) ∧
    (∀ q : Reg, x[q] = s.x[q] → x'[q] = t.x[q]) ∧ (al = s.alloc → al' = t.alloc)

section
variable {i : Instr} {s t : State} {x : Vector Word 8} {al : Alloc} {earlier : List Byte}

theorem EndsAlike.of_kept (hx : t.x = s.x) (hal : t.alloc = s.alloc)
    (e : Effect (s.disguise x al earlier) i (t.disguise x al earlier)) : EndsAlike i s t x al earlier :=
  ⟨x, al, e, fun _ h => hx ▸ h, fun h => hal ▸ h⟩

theorem EndsAlike.of_write (a : Reg) (v : Word) (hx : t.x = s.x.set a v) (hal : t.alloc = s.alloc)
    (e : Effect (s.disguise x al earlier) i (t.disguise (x.set a v) al earlier)) : EndsAlike i s t x al earlier :=
  ⟨x.set a v, al, e, fun _ h => hx ▸ getElem_set_eq a v h, fun h => hal ▸ h⟩

theorem EndsAlike.of_aluResult {a : Reg} {v : Word}
    (e : Effect (s.disguise x al earlier) i (aluResult a v (s.disguise x al earlier))) :
    EndsAlike i s (aluResult a v s) x al earlier :=
  .of_write a v rfl rfl e

/-- An execution depends on the registers of `sources`, on the allocator state only if it is a MAP, and never on the
output history (R22, R32). -/
theorem Effect.endsAlike (e : Effect s i t) (hx : ∀ q ∈ sources i, (s.disguise x al earlier).reg q = s.reg q)
    (hal : ∀ dst len, i = .map dst len → al = s.alloc) : EndsAlike i s t x al earlier := by
  cases e with simp only [sources, List.forall_mem_cons] at hx
  | sloadFault a b c k hk => exact .of_kept rfl rfl (.sloadFault a b c k (by simpa [hx] using hk))
  | sstoreFault a b c k hk => exact .of_kept rfl rfl (.sstoreFault a b c k (by simpa [hx] using hk))
  | divFault a b c hc => exact .of_kept rfl rfl (.divFault a b c (by simpa [hx] using hc))
  | mapFault b c k hk =>
    have hk' := s.allocSegment_disguise_error x al earlier hk
    exact .of_kept rfl rfl (.mapFault b c k (by simpa [hx] using hk'))
  | unmapFault c k hk =>
    have hk' := s.freeSegment_disguise_error x al earlier hk
    exact .of_kept rfl rfl (.unmapFault c k (by simpa [hx] using hk'))
  | outFault c hc =>
    have e' := Effect.outFault (s := s.disguise x al earlier) c (by simpa [hx] using hc)
    simp only [hx] at e'
    exact .of_kept rfl rfl e'
  | loadpFault b c k hk =>
    have hk' := s.replaceProgram_disguise_error x al earlier hk
    exact .of_kept rfl rfl (.loadpFault b c k (by simpa [hx] using hk'))
  | cmovKeep a b c hc => exact .of_kept rfl rfl (.cmovKeep a b c (by simpa [hx] using hc))
  | cmovMove a b c hc =>
    have e' := Effect.cmovMove (s := s.disguise x al earlier) a b c (by simpa [hx] using hc)
    exact .of_aluResult (by simpa [hx] using e')
  | sload a b c v hv => exact .of_aluResult (.sload a b c v (by simpa [hx] using hv))
  | sstore a b c m hm => exact .of_kept rfl rfl (.sstore a b c m (by simpa [hx] using hm))
  | add a b c =>
    have e' := Effect.add (s := s.disguise x al earlier) a b c
    exact .of_aluResult (by simpa [hx] using e')
  | mul a b c =>
    have e' := Effect.mul (s := s.disguise x al earlier) a b c
    exact .of_aluResult (by simpa [hx] using e')
  | div a b c hc =>
    have e' := Effect.div (s := s.disguise x al earlier) a b c (by simpa [hx] using hc)
    exact .of_aluResult (by simpa [hx] using e')
  | nand a b c =>
    have e' := Effect.nand (s := s.disguise x al earlier) a b c
    exact .of_aluResult (by simpa [hx] using e')
  | halt => exact .of_kept rfl rfl .halt
  | map b c h u hu =>
    obtain rfl := hal b c rfl
    have hu' := s.allocSegment_disguise_ok x earlier hu
    have e' := Effect.map (s := s.disguise x s.alloc earlier) b c h _ (by simpa [hx] using hu')
    obtain ⟨-, -, -, rfl⟩ := State.allocSegment_ok hu
    exact ⟨x.set b h, _, e', fun _ hq => getElem_set_eq b h hq, fun _ => rfl⟩
  | unmap c u hu =>
    have hu' := s.freeSegment_disguise_ok x al earlier hu
    have e' := Effect.unmap (s := s.disguise x al earlier) c _ (by simpa [hx] using hu')
    obtain ⟨-, -, rfl⟩ := State.freeSegment_ok hu
    exact ⟨x, _, e', fun _ hq => hq, fun ha => ha ▸ rfl⟩
  | out c hc =>
    have e' := Effect.out (s := s.disguise x al earlier) c (by simpa [hx] using hc)
    simp only [hx, State.emit_disguise] at e'
    exact .of_kept rfl rfl e'
  | inpHold c hk => exact .of_kept rfl rfl (.inpHold c hk)
  | inp c k hk => exact .of_write c k.word rfl rfl (.inp c k hk)
  | loadp b c u hu =>
    have hu' := s.replaceProgram_disguise_ok x al earlier hu
    have e' := Effect.loadp (s := s.disguise x al earlier) b c _ (by simpa [hx] using hu')
    simp only [hx] at e'
    obtain ⟨m, rfl⟩ := State.replaceProgram_frame hu
    exact .of_kept rfl rfl e'
  | loadv a imm => exact .of_aluResult (.loadv a imm)

/-- With the registers left as they are, they end as they are. -/
theorem EndsAlike.of_sameRegs (h : EndsAlike i s t s.x al earlier) :
    ∃ al', Effect (s.disguise s.x al earlier) i (t.disguise t.x al' earlier) ∧ (al = s.alloc → al' = t.alloc) := by
  obtain ⟨x', al', e, hx, hal⟩ := h
  have hreg : x' = t.x := Vector.ext fun j hj => hx ⟨j, hj⟩ rfl
  exact ⟨al', hreg ▸ e, hal⟩

end

/-! ## The statements -/

/-- Settles O22: the overwritten register file agrees with the old one off the register, so the two ends do. -/
theorem onlySourceRegistersInfluenceExecution : Obligations.OnlySourceRegistersInfluenceExecution := by
  intro i s r v hr
  obtain ⟨t, ht⟩ := exec_total i s
  have agree : ∀ q, q ≠ r → (s.setReg r v).reg q = s.reg q := fun q hq => State.setReg_reg_of_ne s v hq
  have alike : EndsAlike i s t (s.x.set r v) s.alloc [] :=
    (exec_effect ht).endsAlike (fun q hq => agree q fun e => hr (e ▸ hq)) fun _ _ _ => rfl
  obtain ⟨x', al', e', hx, hal⟩ := alike
  rw [State.setReg_eq_disguise]
  exact ⟨t, t.disguise x' al' [], ht, exec_of_effect e', fun q hq => hx q (agree q hq), rfl, rfl, rfl, hal rfl, rfl, rfl⟩

theorem exec_withOut {i : Instr} {s t : State} (h : exec i s = .next t) (earlier : List Byte) :
    exec i { s with out := earlier ++ s.out } = .next { t with out := earlier ++ t.out } := by
  obtain ⟨al', e', hal⟩ :=
    ((exec_effect h).endsAlike (earlier := earlier) (fun _ _ => rfl) fun _ _ _ => rfl).of_sameRegs
  obtain rfl := hal rfl
  rw [State.withOut_eq_disguise s, State.withOut_eq_disguise t]
  exact exec_of_effect e'

/-- Settles O26: the fetch and the decoder do not look at the output, and no execution does. -/
theorem outputHistoryIsNeverRead : Obligations.OutputHistoryIsNeverRead := by
  intro s t earlier h
  have hr : s.run = .running := (step_next h).1
  cases hf : s.fetchDecode with
  | error c =>
    rw [step_of_fetchDecode_error hr hf] at h
    cases h
    exact step_of_fetchDecode_error hr hf
  | ok i =>
    rw [step_of_fetchDecode_ok hr hf] at h
    have hstep : step { s with out := earlier ++ s.out } = exec i { s with out := earlier ++ s.out } :=
      step_of_fetchDecode_ok hr hf
    rw [hstep]
    exact exec_withOut h earlier

/-- Settles O27: with the registers and the output history kept, only the allocator state is disguised. -/
theorem allocatorStateIsSeenOnlyByMap : Obligations.AllocatorStateIsSeenOnlyByMap := by
  intro i s t al notMap h
  obtain ⟨al', e', -⟩ :=
    ((exec_effect h).endsAlike (al := al) (earlier := []) (fun _ _ => rfl)
      fun dst len hi => absurd hi (notMap dst len)).of_sameRegs
  refine ⟨al', ?_⟩
  rw [State.withAlloc_eq_disguise s, State.withAlloc_eq_disguise t]
  exact exec_of_effect e'

end Sys2Proof.Machine
end

/-! # Sequences of memory instructions

What a segment instruction has done when it completes, that is, when the machine still runs after it; how every use of
an unmapped handle ends; and the statements on one memory instruction followed by another, assembled from the two. -/

section
namespace Sys2Proof.Machine

/-! ## Completed instructions -/

section
variable {s t : State}

/-- An SSTORE that completes has written (R122). -/
theorem exec_sstore_completed {hd off v : Reg} (h : exec (.sstore hd off v) s = .next t) (ht : t.run = .running) :
    ∃ m, Memory.write s.segs (s.reg hd) (s.reg off) (s.reg v) = .ok m ∧ t = (s.setSegs m).advance := by
  cases exec_effect h with
  | sstoreFault => exact nomatch ht
  | sstore _ _ _ m hw => exact ⟨m, hw, rfl⟩

/-- A MAP that completes has allocated (R123). -/
theorem exec_map_completed {dst len : Reg} (h : exec (.map dst len) s = .next t) (ht : t.run = .running) :
    ∃ p u, s.allocSegment (s.reg len) = .ok (p, u) ∧ t = (u.setReg dst p).advance := by
  cases exec_effect h with
  | mapFault => exact nomatch ht
  | map _ _ p u hu => exact ⟨p, u, hu, rfl⟩

/-- An UNMAP that completes has released (R124). -/
theorem exec_unmap_completed {c : Reg} (h : exec (.unmap c) s = .next t) (ht : t.run = .running) :
    ∃ u, s.freeSegment (s.reg c) = .ok u ∧ t = u.advance := by
  cases exec_effect h with
  | unmapFault => exact nomatch ht
  | unmap _ u hu => exact ⟨u, hu, rfl⟩

/-- A LOADP that completes has replaced the program (R125). -/
theorem exec_loadp_completed {hd target : Reg} (h : exec (.loadp hd target) s = .next t) (ht : t.run = .running) :
    ∃ u, s.replaceProgram (s.reg hd) = .ok u ∧ t = u.setPc (s.reg target) := by
  cases exec_effect h with
  | loadpFault => exact nomatch ht
  | loadp _ _ u hu => exact ⟨u, hu, rfl⟩

end

/-! ## MAP without resources -/

theorem exec_map_of_exhausted {s : State} {dst len : Reg}
    (h : s.allocSegment (s.reg len) = .error .resourceExhausted) :
    exec (.map dst len) s = .next (s.setRun (.faulted .resourceExhausted)) :=
  exec_of_effect (.mapFault dst len _ h)

/-- Settles O38: each clause fails one of the two checks of `Alloc`. -/
theorem mapFaultsWhenResourcesAreExhausted : Obligations.MapFaultsWhenResourcesAreExhausted := by
  intro dst len s
  constructor
  · intro cap hcap hlt
    exact exec_map_of_exhausted (State.allocSegment_of_unfit ((State.fits_eq_false_iff s _).mpr ⟨cap, hcap, hlt⟩))
  · intro hs hfull
    have noHandle : Memory.handleLeft s.segs = false := by
      refine Bool.eq_false_iff.mpr fun hleft => ?_
      obtain ⟨u, hu0, hu⟩ := (Memory.handleLeft_iff hs.memory).mp hleft
      exact ne_true_of_eq_false hu (hfull u hu0)
    exact exec_map_of_exhausted (State.allocSegment_of_noHandle _ noHandle)

/-! ## After a store -/

theorem Memory.read_written {m m' : Memory} {h o v : Word} (hw : Memory.write m h o v = .ok m') :
    Memory.read m' h o = .ok v := by
  rw [Memory.read_after_write hw, if_pos ⟨rfl, rfl⟩]

/-- Settles O45: the load reads, in the written table, at the address just written. -/
theorem loadAfterStoreReturnsTheStoredValue : Obligations.LoadAfterStoreReturnsTheStoredValue := by
  intro dst handle offset value s t hs h ht
  obtain ⟨m, hw, rfl⟩ := exec_sstore_completed h ht
  have load := Effect.sload (s := (s.setSegs m).advance) dst handle offset (s.reg value) (Memory.read_written hw)
  exact ⟨_, exec_of_effect load, by simp, hs⟩

/-- Settles O46: a fetch is a read of segment 0 at `pc`, which the store has advanced to the address it wrote. -/
theorem storeIntoProgramIsFetchedNext : Obligations.StoreIntoProgramIsFetchedNext := by
  intro handle offset value s t _ hhandle hoffset h ht
  obtain ⟨m, hw, rfl⟩ := exec_sstore_completed h ht
  rw [hhandle, hoffset] at hw
  exact (State.fetch_ok_iff _ _).mpr (Memory.read_written hw)

/-! ## After LOADP -/

/-- An SSTORE, completed or not, leaves every segment but the one its handle names (R122). -/
theorem exec_sstore_seg?_of_ne {s t : State} {hd off v : Reg} (h : exec (.sstore hd off v) s = .next t) {k : Word}
    (hk : k ≠ s.reg hd) : Memory.seg? t.segs k = Memory.seg? s.segs k := by
  cases (exec_effect h).segsChange with
  | kept _ same => rw [same]
  | stored _ _ _ hw => exact Memory.seg?_after_write hw hk

/-- After a LOADP from a handle other than 0, segment 0 is the source segment and every other segment is what it was
(R125). -/
theorem exec_loadp_seg? {s t : State} {hd target : Reg} (h : exec (.loadp hd target) s = .next t)
    (ht : t.run = .running) (h0 : s.reg hd ≠ 0#32) (k : Word) :
    Memory.seg? t.segs k = if k = 0#32 then Memory.seg? s.segs (s.reg hd) else Memory.seg? s.segs k := by
  obtain ⟨u, hu, rfl⟩ := exec_loadp_completed h ht
  obtain ⟨g, hg, ⟨hz, -⟩ | ⟨-, -, rfl⟩⟩ := State.replaceProgram_ok hu
  · exact absurd hz h0
  · rw [hg]
    exact Memory.seg?_set_zero s.segs k g

/-- Settles O47: the copy and its source lie under two handles, and the store leaves the one it does not name. -/
theorem programCopyIsIndependent : Obligations.ProgramCopyIsIndependent := by
  intro handle target hd off v s t u _ h0 hload ht hstore
  have copied := exec_loadp_seg? hload ht h0
  constructor
  · intro hsource
    rw [exec_sstore_seg?_of_ne hstore (hsource ▸ Ne.symm h0), copied, if_pos rfl]
  · intro hzero
    rw [exec_sstore_seg?_of_ne hstore (hzero ▸ h0), copied, if_neg h0]

/-! ## After UNMAP -/

section
variable {s : State} {r : Reg} (hr : Memory.seg? s.segs (s.reg r) = none)
include hr

theorem exec_sload_of_unmapped (a c : Reg) :
    exec (.sload a r c) s = .next (s.setRun (.faulted (.invalidSegment (s.reg r)))) :=
  exec_of_effect (.sloadFault a r c _ (Memory.read_of_unmapped _ hr))

theorem exec_sstore_of_unmapped (b c : Reg) :
    exec (.sstore r b c) s = .next (s.setRun (.faulted (.invalidSegment (s.reg r)))) :=
  exec_of_effect (.sstoreFault r b c _ (Memory.read_of_unmapped _ hr))

theorem exec_loadp_of_unmapped (c : Reg) :
    exec (.loadp r c) s = .next (s.setRun (.faulted (.invalidSegment (s.reg r)))) :=
  exec_of_effect (.loadpFault r c _ (State.replaceProgram_of_unmapped hr))

theorem exec_unmap_of_unmapped : exec (.unmap r) s = .next (s.setRun (.faulted (.invalidRelease (s.reg r)))) :=
  exec_of_effect (.unmapFault r _ (State.freeSegment_of_bad (.inr ((Memory.mapped_eq_false_iff _ _).mpr hr))))

end

/-- After an UNMAP that completes, its handle is unmapped (R50). -/
theorem exec_unmap_seg? {s t : State} {c : Reg} (h : exec (.unmap c) s = .next t) (ht : t.run = .running) :
    Memory.seg? t.segs (s.reg c) = none := by
  obtain ⟨u, hu, rfl⟩ := exec_unmap_completed h ht
  obtain ⟨-, -, rfl⟩ := State.freeSegment_ok hu
  exact (Memory.seg?_erase s.segs (s.reg c) (s.reg c)).trans (if_pos rfl)

/-- Settles O48: the released handle is unmapped, and each of the four instructions checks its handle first. -/
theorem releasedHandleFaultsOnEveryUse : Obligations.ReleasedHandleFaultsOnEveryUse := by
  intro handle p q r s t _ h ht hr
  have released := exec_unmap_seg? h ht
  rw [← hr] at released ⊢
  exact ⟨exec_sload_of_unmapped released p q, exec_sstore_of_unmapped released p q,
    exec_loadp_of_unmapped released p, exec_unmap_of_unmapped released⟩

/-! ## The reference policy -/

theorem Alloc.pick_reference_cons (h : Word) (free : List Word) (next : Nat) (m : Memory) :
    (Alloc.reference (h :: free) next).pick m = (h, .reference free next) := rfl

theorem Alloc.pick_reference_nil (next : Nat) (m : Memory) :
    (Alloc.reference [] next).pick m = (BitVec.ofNat 32 next, .reference [] (next + 1)) := rfl

theorem Alloc.release_reference (h : Word) (free : List Word) (next : Nat) :
    (Alloc.reference free next).release h = .reference (h :: free) next := rfl

/-- The reference policy picks the handle it was last told of, and is then as it was before the release (R49). -/
theorem Alloc.pick_release {al : Alloc} (hal : al.isReference = true) (h : Word) (m : Memory) :
    (al.release h).pick m = (h, al) := by
  cases al with
  | drawn n => exact nomatch hal
  | reference free next => rfl

/-- A MAP that completes returns the handle the policy picks and leaves the policy in its next state (R47). -/
theorem exec_map_pick {s t : State} {dst len : Reg} (h : exec (.map dst len) s = .next t) (ht : t.run = .running) :
    s.alloc.pick s.segs = (t.reg dst, t.alloc) := by
  obtain ⟨p, u, hu, rfl⟩ := exec_map_completed h ht
  obtain ⟨-, -, rfl, rfl⟩ := State.allocSegment_ok hu
  simp

/-- An UNMAP that completes tells the policy its handle (R50). -/
theorem exec_unmap_alloc {s t : State} {c : Reg} (h : exec (.unmap c) s = .next t) (ht : t.run = .running) :
    t.alloc = s.alloc.release (s.reg c) := by
  obtain ⟨u, hu, rfl⟩ := exec_unmap_completed h ht
  obtain ⟨-, -, rfl⟩ := State.freeSegment_ok hu
  rfl

/-- Settles O49, by the two cases of the list of released handles. -/
theorem referencePolicyPicksMostRecentlyReleased : Obligations.ReferencePolicyPicksMostRecentlyReleased := by
  intro s t free next _ ht hal
  constructor
  · intro dst len h
    have picked := exec_map_pick h ht
    rw [hal] at picked
    constructor
    · rintro k rest rfl
      exact Prod.mk.inj (picked.symm.trans (Alloc.pick_reference_cons k rest next s.segs))
    · rintro rfl
      exact Prod.mk.inj (picked.symm.trans (Alloc.pick_reference_nil next s.segs))
  · intro c h
    rw [exec_unmap_alloc h ht, hal, Alloc.release_reference]

/-- A MAP whose two checks pass returns the handle picked, which then names a zero-filled segment (R47, R123). -/
theorem exec_map_of_fit {s : State} {dst len : Reg} (hfit : s.fits (Memory.used s.segs + (s.reg len).toNat) = true)
    (hleft : Memory.handleLeft s.segs = true) :
    ∃ u, exec (.map dst len) s = .next u ∧ u.reg dst = (s.alloc.pick s.segs).1 ∧
      Memory.seg? u.segs (s.alloc.pick s.segs).1 = some (Segment.zeros (s.reg len).toNat) := by
  refine ⟨_, exec_of_effect (.map dst len _ _ (State.allocSegment_eq hfit hleft)), by simp, ?_⟩
  simp [Memory.seg?_set]

/-- Settles O50: the released handle is free to pick, and it is what the policy picks. -/
theorem referencePolicyReissuesTheReleasedHandle : Obligations.ReferencePolicyReissuesTheReleasedHandle := by
  intro handle dst len s t hs _ href h ht hcap
  have picked : t.alloc.pick t.segs = (s.reg handle, s.alloc) := by
    rw [exec_unmap_alloc h ht, Alloc.pick_release href]
  have hleft : Memory.handleLeft t.segs = true := by
    obtain ⟨u, hu, -⟩ := exec_unmap_completed h ht
    obtain ⟨h0, -, -⟩ := State.freeSegment_ok hu
    have unmapped := (Memory.mapped_eq_false_iff _ _).mpr (exec_unmap_seg? h ht)
    exact (Memory.handleLeft_iff ((exec_effect h).keeps_inv hs).memory).mpr ⟨s.reg handle, h0, unmapped⟩
  have hfit : t.fits (Memory.used t.segs + (t.reg len).toNat) = true := by
    obtain ⟨⟨-, capacity, -⟩, -⟩ := (exec_effect h).parametersKept
    rw [State.fits_iff, capacity]
    exact hcap
  have reissued := exec_map_of_fit (dst := dst) hfit hleft
  rwa [picked] at reissued

end Sys2Proof.Machine
end

/-! # The encoding of instructions

The fields of each format's canonical word, and what masking leaves of a word. From them the two round trips under an
admissible opcode map, whose composition says that ignored bits are ignored, and the statements on decoding. -/

section
namespace Sys2Proof

/-! ## Admissible opcode maps -/

/-- Fourteen rows that name all fourteen operations name none twice (decision D1). -/
theorem OpMap.nodup_of_wf {m : OpMap} (hm : OpMap.wf m = true) : m.Nodup := by
  obtain ⟨hlength, hmem, -⟩ := (OpMap.wf_iff m).mp hm
  have nodupAll : Op.all.Nodup := by decide
  have perm : Op.all.Perm m := (nodupAll.subperm fun o _ => hmem o).perm_of_length_le hlength.le
  exact perm.nodup_iff.mp nodupAll

/-- In an admissible map an operation's own number is the only one that selects it. -/
theorem opcodeOf_of_getElem? {m : OpMap} (hm : OpMap.wf m = true) {n : Nat} {o : Op} (h : m[n]? = some o) :
    opcodeOf m o = n := by
  obtain ⟨hn, rfl⟩ := List.getElem?_eq_some_iff.mp h
  exact (OpMap.nodup_of_wf hm).idxOf_getElem n hn

/-! ## The fields of each format's canonical word -/

section
variable (op : Nat) (a b c : Reg)

@[simp] theorem fieldA_encABC : fieldA (encABC op a b c) = a := by
  apply Fin.ext
  simp only [fieldA, bits, encABC, Fin.val_ofNat, BitVec.toNat_ofNat]
  omega

@[simp] theorem fieldB_encABC : fieldB (encABC op a b c) = b := by
  apply Fin.ext
  simp only [fieldB, bits, encABC, Fin.val_ofNat, BitVec.toNat_ofNat]
  omega

@[simp] theorem fieldC_encABC : fieldC (encABC op a b c) = c := by
  apply Fin.ext
  simp only [fieldC, bits, encABC, Fin.val_ofNat, BitVec.toNat_ofNat]
  omega

@[simp] theorem fieldB_encBC : fieldB (encBC op b c) = b := by
  apply Fin.ext
  simp only [fieldB, bits, encBC, Fin.val_ofNat, BitVec.toNat_ofNat]
  omega

@[simp] theorem fieldC_encBC : fieldC (encBC op b c) = c := by
  apply Fin.ext
  simp only [fieldC, bits, encBC, Fin.val_ofNat, BitVec.toNat_ofNat]
  omega

@[simp] theorem fieldC_encC : fieldC (encC op c) = c := by
  apply Fin.ext
  simp only [fieldC, bits, encC, Fin.val_ofNat, BitVec.toNat_ofNat]
  omega

variable {imm : Word} (himm : imm.toNat < 33554432)
include himm

theorem fieldLitA_encLit : fieldLitA (encLit op a imm) = a := by
  apply Fin.ext
  simp only [fieldLitA, bits, encLit, Fin.val_ofNat, BitVec.toNat_ofNat]
  omega

theorem fieldImm_encLit : fieldImm (encLit op a imm) = imm := by
  apply BitVec.eq_of_toNat_eq
  simp only [fieldImm, bits, encLit, BitVec.toNat_ofNat]
  omega

end

theorem Instr.wf_loadv_iff (a : Reg) (imm : Word) : (Instr.loadv a imm).wf = true ↔ imm.toNat < 33554432 :=
  decide_eq_true_iff

/-- The opcode bits of a canonical word are the operation's number, under any admissible map (R71, R84). -/
theorem opcodeField_encodeWith {m : OpMap} (hm : OpMap.wf m = true) {i : Instr} (hi : i.wf = true) :
    opcodeField (encodeWith m i) = opcodeOf m i.op := by
  have hop : opcodeOf m i.op < 16 := lt_trans (opcodeOf_lt hm i.op) (by decide)
  cases i with
  | cmov a b c | sload a b c | sstore a b c | add a b c | mul a b c | div a b c | nand a b c =>
    exact opcodeField_encABC hop a b c
  | halt => exact opcodeField_encNone hop
  | map b c | loadp b c => exact opcodeField_encBC hop b c
  | unmap c | out c | inp c => exact opcodeField_encC hop c
  | loadv a imm => exact opcodeField_encLit hop a ((Instr.wf_loadv_iff a imm).mp hi)

/-- The fields of a canonical word are the operands it was made from. -/
theorem instrOf_encodeWith (m : OpMap) {i : Instr} (hi : i.wf = true) : instrOf i.op (encodeWith m i) = i := by
  cases i with
  | cmov | sload | sstore | add | mul | div | nand => simp [Instr.op, instrOf, encodeWith]
  | halt => rfl
  | map | loadp => simp [Instr.op, instrOf, encodeWith]
  | unmap | out | inp => simp [Instr.op, instrOf, encodeWith]
  | loadv a imm =>
    have himm := (Instr.wf_loadv_iff a imm).mp hi
    simp [Instr.op, instrOf, encodeWith, fieldLitA_encLit _ a himm, fieldImm_encLit _ a himm]

/-! ## What masking leaves of a word -/

/-- How many of the bits below the opcode a format reads, bit 0 first (R72 to R75). -/
def Format.operandBits : Format → Nat
  | .abc => 9
  | .bc => 6
  | .c => 3
  | .none => 0
  | .lit => 28

theorem Format.operandBits_le (f : Format) : f.operandBits ≤ 28 := by cases f <;> decide

theorem Format.getLsbD_readMask (f : Format) {k : Nat} (hk : k < 32) :
    f.readMask.getLsbD k = decide (28 ≤ k ∨ k < f.operandBits) := by
  revert k
  cases f <;> decide

/-- A masked word is its opcode and the low bits its format reads. -/
theorem Format.toNat_and_readMask (f : Format) (w : Word) :
    (w &&& f.readMask).toNat = 2 ^ 28 * opcodeField w + w.toNat % 2 ^ f.operandBits := by
  have opcode : opcodeField w = w.toNat / 2 ^ 28 := Nat.mod_eq_of_lt (by omega)
  have low : w.toNat % 2 ^ f.operandBits < 2 ^ 28 :=
    lt_of_lt_of_le (Nat.mod_lt _ (Nat.two_pow_pos _)) (Nat.pow_le_pow_right (by decide) f.operandBits_le)
  apply Nat.eq_of_testBit_eq
  intro k
  rw [BitVec.testBit_toNat, BitVec.getLsbD_and, opcode, Nat.testBit_two_pow_mul_add _ low, Nat.testBit_mod_two_pow,
    Nat.testBit_div_two_pow, BitVec.testBit_toNat]
  by_cases hword : k < 32
  · rw [f.getLsbD_readMask hword]
    by_cases hk : k < 28
    · simp [hk, Nat.not_le.mpr hk, Bool.and_comm]
    · simp [hk, Nat.le_of_not_lt hk, BitVec.testBit_toNat]
  · have beyond : w.getLsbD k = false := BitVec.getLsbD_of_ge w k (by omega)
    have notLow : ¬ k < 28 := by omega
    simp [beyond, notLow, Nat.le_of_not_lt notLow, BitVec.testBit_toNat]

/-! ## Putting a format's fields back under the opcode masks the word (R84) -/

theorem encABC_fields (w : Word) :
    encABC (opcodeField w) (fieldA w) (fieldB w) (fieldC w) = w &&& Format.abc.readMask := by
  apply BitVec.eq_of_toNat_eq
  rw [Format.toNat_and_readMask]
  simp only [encABC, opcodeField, fieldA, fieldB, fieldC, bits, Format.operandBits, Fin.val_ofNat, BitVec.toNat_ofNat]
  omega

theorem encBC_fields (w : Word) : encBC (opcodeField w) (fieldB w) (fieldC w) = w &&& Format.bc.readMask := by
  apply BitVec.eq_of_toNat_eq
  rw [Format.toNat_and_readMask]
  simp only [encBC, opcodeField, fieldB, fieldC, bits, Format.operandBits, Fin.val_ofNat, BitVec.toNat_ofNat]
  omega

theorem encC_fields (w : Word) : encC (opcodeField w) (fieldC w) = w &&& Format.c.readMask := by
  apply BitVec.eq_of_toNat_eq
  rw [Format.toNat_and_readMask]
  simp only [encC, opcodeField, fieldC, bits, Format.operandBits, Fin.val_ofNat, BitVec.toNat_ofNat]
  omega

theorem encNone_opcode (w : Word) : encNone (opcodeField w) = w &&& Format.none.readMask := by
  apply BitVec.eq_of_toNat_eq
  rw [Format.toNat_and_readMask]
  simp only [encNone, opcodeField, bits, Format.operandBits, BitVec.toNat_ofNat]
  omega

theorem encLit_fields (w : Word) : encLit (opcodeField w) (fieldLitA w) (fieldImm w) = w &&& Format.lit.readMask := by
  apply BitVec.eq_of_toNat_eq
  rw [Format.toNat_and_readMask]
  simp only [encLit, opcodeField, fieldLitA, fieldImm, bits, Format.operandBits, Fin.val_ofNat, BitVec.toNat_ofNat]
  omega

/-! ## The decoder -/

@[simp] theorem instrOf_op (o : Op) (w : Word) : (instrOf o w).op = o := by cases o <;> rfl

/-- The literal field has 25 bits, so what the decoder reads has an encoding (R77). -/
theorem instrOf_wf (o : Op) (w : Word) : (instrOf o w).wf = true := by
  cases o with
  | loadv =>
    refine (Instr.wf_loadv_iff _ _).mpr ?_
    simp only [fieldImm, bits, BitVec.toNat_ofNat]
    omega
  | cmov | sload | sstore | add | mul | div | nand | halt | map | unmap | out | inp | loadp => rfl

/-- Encoding the instruction read from a word, under the word's own opcode, masks the word (R84). -/
theorem encodeWith_instrOf {m : OpMap} {o : Op} {w : Word} (hop : opcodeOf m o = opcodeField w) :
    encodeWith m (instrOf o w) = w &&& o.format.readMask := by
  cases o with simp only [instrOf, encodeWith, hop, Op.format]
  | cmov | sload | sstore | add | mul | div | nand => exact encABC_fields w
  | halt => exact encNone_opcode w
  | map | loadp => exact encBC_fields w
  | unmap | out | inp => exact encC_fields w
  | loadv => exact encLit_fields w

theorem decodeWith_of_some {m : OpMap} {w : Word} {o : Op} (h : m[opcodeField w]? = some o) :
    decodeWith m w = .ok (instrOf o w) := by
  simp [decodeWith, h]

theorem decodeWith_of_none {m : OpMap} {w : Word} (h : m[opcodeField w]? = none) :
    decodeWith m w = .error (.invalidOpcode w) := by
  simp [decodeWith, h]

/-- What the decoder answers is read from the word under the operation of its opcode. -/
theorem decodeWith_ok {m : OpMap} {w : Word} {i : Instr} (h : decodeWith m w = .ok i) :
    ∃ o, m[opcodeField w]? = some o ∧ i = instrOf o w := by
  cases ho : m[opcodeField w]? with
  | none => exact nomatch (decodeWith_of_none ho).symm.trans h
  | some o => exact ⟨o, rfl, Except.ok.inj (h.symm.trans (decodeWith_of_some ho))⟩

/-- The illegal words are those from 0xE0000000 up (R79). -/
theorem opcodeField_ge_fourteen_iff (w : Word) : 14 ≤ opcodeField w ↔ 3758096384 ≤ w.toNat := by
  simp only [opcodeField, bits]
  omega

/-! ## The statements -/

/-- Settles O1: the opcode of the canonical word selects the operation, and its fields are the operands. -/
theorem decodeOfEncodeUnderEveryOpcodeMap : Obligations.DecodeOfEncodeUnderEveryOpcodeMap := by
  intro m hm i hi
  have selected : m[opcodeField (encodeWith m i)]? = some i.op := by
    rw [opcodeField_encodeWith hm hi]
    exact getElem?_opcodeOf hm i.op
  rw [decodeWith_of_some selected, instrOf_encodeWith m hi]

/-- Settles O2: the word's opcode is its operation's own number, so the encoder puts back what the decoder read. -/
theorem encodeOfDecodeIsCanonicalWord : Obligations.EncodeOfDecodeIsCanonicalWord := by
  intro m hm w i h
  obtain ⟨o, ho, rfl⟩ := decodeWith_ok h
  rw [instrOf_op]
  exact ⟨instrOf_wf o w, encodeWith_instrOf (opcodeOf_of_getElem? hm ho)⟩

/-- Settles O3: the masked word is the canonical word of the decoded instruction, so the two round trips give that it
decodes to the same one. -/
theorem ignoredBitsDoNotAffectDecoding : Obligations.IgnoredBitsDoNotAffectDecoding := by
  refine ⟨fun m hm w o ho => ?_, fun m hm w h7 => ?_, fun k hk => ?_⟩
  · have decoded := decodeWith_of_some ho
    obtain ⟨hwf, canonical⟩ := encodeOfDecodeIsCanonicalWord m hm w _ decoded
    rw [instrOf_op] at canonical
    rw [decoded, ← canonical, decodeOfEncodeUnderEveryOpcodeMap m hm _ hwf]
  · obtain ⟨-, -, halt⟩ := (OpMap.wf_iff m).mp hm
    exact decodeWith_of_some (h7 ▸ halt)
  · simp only [Format.getLsbD_readMask _ hk, Format.operandBits, Nat.lt_succ_iff, Nat.not_lt_zero, or_false,
      decide_eq_true_iff, true_and]
    omega

/-- Settles O4: an admissible map has a row for exactly the opcodes below 14. -/
theorem everyWordIsAnInstructionOrIllegal : Obligations.EveryWordIsAnInstructionOrIllegal := by
  intro m hm w
  obtain ⟨hlength, -, -⟩ := (OpMap.wf_iff m).mp hm
  refine ⟨fun hlt => ?_, fun hge => ?_, opcodeField_ge_fourteen_iff w⟩
  · have row := List.getElem?_eq_getElem (hlength.symm ▸ hlt)
    exact ⟨_, decodeWith_of_some row, by rw [row, instrOf_op]⟩
  · exact decodeWith_of_none (List.getElem?_eq_none (hlength.symm ▸ hge))

/-- Settles O5: fifteen closed evaluations of the decoder. -/
theorem specWordsDecodeAsListed : Obligations.SpecWordsDecodeAsListed := by
  unfold Obligations.SpecWordsDecodeAsListed
  decide

end Sys2Proof
end

/-! # Execution does not read the opcode map

The operations that answer a state carry the opcode map along, so every instruction does; the map enters a step through
the decoder alone. -/

section
namespace Sys2Proof.Machine

/-- The state with another opcode map. -/
def State.withOpmap (s : State) (m : OpMap) : State := { s with opmap := m }

section
variable (s : State) (m : OpMap)

/-! ## The operations that answer a state -/

theorem State.allocSegment_withOpmap (n : Word) :
    (s.withOpmap m).allocSegment n = (s.allocSegment n).map fun p => (p.1, p.2.withOpmap m) := by
  cases e : s.allocSegment n with
  | error c =>
    obtain ⟨rfl, hunfit | hnone⟩ := State.allocSegment_error e
    · exact State.allocSegment_of_unfit hunfit
    · exact State.allocSegment_of_noHandle n hnone
  | ok p =>
    obtain ⟨h, u⟩ := p
    obtain ⟨hfit, hleft, rfl, rfl⟩ := State.allocSegment_ok e
    exact State.allocSegment_eq hfit hleft

theorem State.freeSegment_withOpmap (h : Word) :
    (s.withOpmap m).freeSegment h = (s.freeSegment h).map (State.withOpmap · m) := by
  cases e : s.freeSegment h with
  | error c =>
    obtain ⟨rfl, hbad⟩ := State.freeSegment_error e
    exact State.freeSegment_of_bad hbad
  | ok u =>
    obtain ⟨h0, hmapped, rfl⟩ := State.freeSegment_ok e
    exact State.freeSegment_eq h0 hmapped

theorem State.replaceProgram_withOpmap (h : Word) :
    (s.withOpmap m).replaceProgram h = (s.replaceProgram h).map (State.withOpmap · m) := by
  cases e : s.replaceProgram h with
  | error c =>
    rcases State.replaceProgram_error e with ⟨hg, rfl⟩ | ⟨g, hg, h0, rfl, hfit⟩
    · exact State.replaceProgram_of_unmapped hg
    · exact State.replaceProgram_of_unfit h0 hg hfit
  | ok u =>
    obtain ⟨g, hg, ⟨rfl, rfl⟩ | ⟨h0, hfit, rfl⟩⟩ := State.replaceProgram_ok e
    · exact State.replaceProgram_of_zero (Memory.mapped_of_seg? hg)
    · exact State.replaceProgram_of_fit h0 hg hfit

end

/-! ## Every instruction -/

/-- An execute phase carries the opcode map along when its checks answer alike, their value changed by `f`, and its
effect carries the map along. -/
theorem orRaise_withOpmap {α : Type} {r r' : Except Cause α} {s t : State} {k k' : α → State} {m : OpMap} (f : α → α)
    (h : orRaise r s k = .next t) (hr : r' = r.map f) (hk : ∀ v, k' (f v) = (k v).withOpmap m) :
    orRaise r' (s.withOpmap m) k' = .next (t.withOpmap m) := by
  subst hr
  rcases orRaise_next h with ⟨c, rfl, rfl⟩ | ⟨v, rfl, rfl⟩
  · rfl
  · exact congrArg Host.Outcome.next (hk v)

/-- The same where the checks do not answer a state. -/
theorem orRaise_withOpmap_same {α : Type} {r : Except Cause α} {s t : State} {k k' : α → State} {m : OpMap}
    (h : orRaise r s k = .next t) (hk : ∀ v, k' v = (k v).withOpmap m) :
    orRaise r (s.withOpmap m) k' = .next (t.withOpmap m) :=
  orRaise_withOpmap id h (by cases r <;> rfl) hk

/-- No execution reads the opcode map or changes it (R76). -/
theorem exec_withOpmap {i : Instr} {s t : State} (h : exec i s = .next t) (m : OpMap) :
    exec i (s.withOpmap m) = .next (t.withOpmap m) := by
  cases i with
  | add | mul | nand | halt | loadv => cases h; rfl
  | cmov a b c =>
    cases exec_effect h with
    | cmovKeep _ _ _ hc => exact exec_of_effect (.cmovKeep a b c hc)
    | cmovMove _ _ _ hc => exact exec_of_effect (.cmovMove a b c hc)
  | sload | sstore | div | out => exact orRaise_withOpmap_same h fun _ => rfl
  | map b c => exact orRaise_withOpmap _ h (s.allocSegment_withOpmap m (s.reg c)) fun _ => rfl
  | unmap c => exact orRaise_withOpmap _ h (s.freeSegment_withOpmap m (s.reg c)) fun _ => rfl
  | loadp b c => exact orRaise_withOpmap _ h (s.replaceProgram_withOpmap m (s.reg b)) fun _ => rfl
  | inp c =>
    cases exec_effect h with
    | inpHold _ hk => exact exec_of_effect (.inpHold c hk)
    | inp _ k hk => exact exec_of_effect (.inp c k hk)

/-! ## The statement -/

theorem State.fetchDecode_of_decode {s : State} {w : Word} {i : Instr} (hf : s.fetch = .ok w)
    (hd : decodeWith s.opmap w = .ok i) : s.fetchDecode = .ok i := by
  simp [State.fetchDecode, hf, hd]

/-- Settles O51: execution does not read the map, and the decoder undoes the encoder under any admissible one. -/
theorem opcodeMapChangesNoSemanticRule : Obligations.OpcodeMapChangesNoSemanticRule := by
  refine ⟨fun i s t m h => exec_withOpmap h m, fun s i hr hm hi hread => ?_⟩
  have fetched : s.fetch = .ok (encodeWith s.opmap i) := (State.fetch_ok_iff s _).mpr hread
  have decoded := decodeOfEncodeUnderEveryOpcodeMap s.opmap hm i hi
  exact step_of_fetchDecode_ok hr (State.fetchDecode_of_decode fetched decoded)

end Sys2Proof.Machine
end

/-! # ALU instructions

What every ALU result keeps is said once, of the one state update they all end in; each statement then adds what value
its instruction writes. -/

section
namespace Sys2Proof.Machine

/-! ## The frame of an ALU result -/

theorem advanced_advance (s : State) : advanced s s.advance := ⟨s.advance_pc_toNat, rfl⟩

/-- What an ALU result leaves, and the advance it ends in (R100 (a), R154). -/
theorem aluResult_frame (dst : Reg) (v : Word) (s : State) :
    regsKept [dst] s (aluResult dst v s) ∧ memoryKept s (aluResult dst v s) ∧ consoleKept s (aluResult dst v s) ∧
      parametersKept s (aluResult dst v s) ∧ advanced s (aluResult dst v s) :=
  ⟨regsKept_of_setReg s dst v, memoryKept_of_eq rfl rfl, ⟨rfl, rfl⟩, ⟨rfl, rfl, rfl⟩, advanced_advance (s.setReg dst v)⟩

/-- An instruction with an ALU result as its effect completes, writes that value and keeps the rest. -/
theorem exec_of_aluResult {i : Instr} {s : State} {dst : Reg} {v : Word}
    (e : Effect s i (aluResult dst v s)) :
    ∃ t, exec i s = .next t ∧ t.reg dst = v ∧
      regsKept [dst] s t ∧ memoryKept s t ∧ consoleKept s t ∧ parametersKept s t ∧ advanced s t :=
  ⟨_, exec_of_effect e, aluResult_reg_self dst v s, aluResult_frame dst v s⟩

/-! ## The values written -/

theorem word_toNat_eq_zero_iff (w : Word) : w.toNat = 0 ↔ w = 0#32 := BitVec.toNat_inj (y := 0#32)

theorem State.setReg_reg_eq_self (s : State) (a : Reg) : s.setReg a (s.reg a) = s := by
  have same : s.x.set a (s.x[a]) = s.x := Vector.set_getElem_self a.isLt
  exact congrArg (fun x => { s with x := x }) same

/-- A CMOV that does not move writes its destination back, so both its cases end in an ALU result (R101). -/
theorem effect_cmov (dst src cond : Reg) (s : State) :
    Effect s (.cmov dst src cond)
      (aluResult dst (if (s.reg cond).toNat ≠ 0 then s.reg src else s.reg dst) s) := by
  by_cases hc : s.reg cond = 0#32
  · rw [if_neg (not_not_intro ((word_toNat_eq_zero_iff _).mpr hc)), aluResult, s.setReg_reg_eq_self dst]
    exact .cmovKeep dst src cond hc
  · rw [if_pos (mt (word_toNat_eq_zero_iff _).mp hc)]
    exact .cmovMove dst src cond hc

theorem literal_toNat (imm : Word) : (literal imm).toNat = imm.toNat % 2 ^ 25 := by
  simp only [literal, bits, BitVec.toNat_ofNat]
  omega

/-- A literal that has an encoding is its own value (R77). -/
theorem literal_eq_self {imm : Word} (himm : imm.toNat < 33554432) : literal imm = imm := by
  apply BitVec.eq_of_toNat_eq
  rw [literal_toNat]
  exact Nat.mod_eq_of_lt himm

/-! ## The statements -/

/-- Settles O33: the two clauses are the two ways a DIV ends, by its check of the divisor. -/
theorem divWritesQuotientOrFaults : Obligations.DivWritesQuotientOrFaults := by
  intro dst x y s
  constructor
  · intro hy
    have divisor : s.reg y ≠ 0#32 := mt (word_toNat_eq_zero_iff _).mpr hy
    obtain ⟨t, ht, hv, frame⟩ := exec_of_aluResult (.div dst x y divisor)
    exact ⟨t, ht, by rw [hv, ← BitVec.udiv_def, BitVec.toNat_udiv], frame⟩
  · intro hy
    exact exec_of_effect (.divFault dst x y ((word_toNat_eq_zero_iff _).mp hy))

/-- Settles O29: both cases of CMOV end in an ALU result. -/
theorem cmovMovesWhenConditionIsNotZero : Obligations.CmovMovesWhenConditionIsNotZero :=
  fun dst src cond s => exec_of_aluResult (effect_cmov dst src cond s)

/-- Settles O30: the sum of two words is their sum modulo 2^32. -/
theorem addWritesSumModuloWord : Obligations.AddWritesSumModuloWord := by
  intro dst x y s
  obtain ⟨t, ht, hv, frame⟩ := exec_of_aluResult (.add dst x y)
  exact ⟨t, ht, by rw [hv, BitVec.toNat_add], frame⟩

/-- Settles O31: the product of two words is their product modulo 2^32. -/
theorem mulWritesProductModuloWord : Obligations.MulWritesProductModuloWord := by
  intro dst x y s
  obtain ⟨t, ht, hv, frame⟩ := exec_of_aluResult (.mul dst x y)
  exact ⟨t, ht, by rw [hv, BitVec.toNat_mul], frame⟩

/-- Settles O32: the complement of a word, as a number and bit by bit. -/
theorem nandWritesComplementOfAnd : Obligations.NandWritesComplementOfAnd := by
  intro dst x y s
  obtain ⟨t, ht, hv, frame⟩ := exec_of_aluResult (.nand dst x y)
  refine ⟨t, ht, by rw [hv, BitVec.toNat_not, BitVec.toNat_and], fun k hk => ?_, frame⟩
  rw [hv, BitVec.getLsbD_not, BitVec.getLsbD_and, decide_eq_true hk, Bool.true_and]

/-- Settles O34: the literal is the operand modulo 2^25, which a well-formed operand is already. -/
theorem loadvWritesZeroExtendedLiteral : Obligations.LoadvWritesZeroExtendedLiteral := by
  intro dst imm s
  obtain ⟨t, ht, hv, frame⟩ := exec_of_aluResult (.loadv dst imm)
  refine ⟨t, ht, by rw [hv, literal_toNat], fun hwf => ?_, frame⟩
  rw [hv, literal_eq_self ((Instr.wf_loadv_iff dst imm).mp hwf)]

end Sys2Proof.Machine
end

/-! # Segment instructions

What an update of the segment table and the allocator keeps of the rest of the state is said once; how an access beyond
the end of a segment ends is said once for SLOAD and SSTORE. Each statement is then one clause per way its instruction
ends. -/

section
namespace Sys2Proof.Machine

/-! ## Frames -/

/-- What an instruction that changes the segment table and the allocator and writes no register keeps (R124). -/
theorem setSegs_setAlloc_frame (s : State) (m : Memory) (al : Alloc) :
    regsKept [] s ((s.setSegs m).setAlloc al).advance ∧ consoleKept s ((s.setSegs m).setAlloc al).advance ∧
      parametersKept s ((s.setSegs m).setAlloc al).advance ∧ advanced s ((s.setSegs m).setAlloc al).advance :=
  ⟨fun _ _ => rfl, ⟨rfl, rfl⟩, ⟨rfl, rfl, rfl⟩, advanced_advance ((s.setSegs m).setAlloc al)⟩

/-- The frame of a store: that of any change of the segment table, with the allocator as it was (R122). -/
theorem setSegs_frame (s : State) (m : Memory) :
    regsKept [] s (s.setSegs m).advance ∧ consoleKept s (s.setSegs m).advance ∧
      parametersKept s (s.setSegs m).advance ∧ advanced s (s.setSegs m).advance :=
  setSegs_setAlloc_frame s m s.alloc

/-- The frame of an allocation that writes its handle to a register (R123): an ALU result after the allocation. -/
theorem setSegs_setAlloc_setReg_frame (s : State) (m : Memory) (al : Alloc) (dst : Reg) (v : Word) :
    regsKept [dst] s (((s.setSegs m).setAlloc al).setReg dst v).advance ∧
      consoleKept s (((s.setSegs m).setAlloc al).setReg dst v).advance ∧
      parametersKept s (((s.setSegs m).setAlloc al).setReg dst v).advance ∧
      advanced s (((s.setSegs m).setAlloc al).setReg dst v).advance := by
  obtain ⟨regs, -, console, parameters, adv⟩ := aluResult_frame dst v ((s.setSegs m).setAlloc al)
  exact ⟨regs, console, parameters, adv⟩

/-! ## SLOAD and SSTORE -/

section
variable {s : State} {hd off : Reg} {g : Segment} (hg : Memory.seg? s.segs (s.reg hd) = some g)
  (ho : g.len ≤ (s.reg off).toNat)
include hg ho

theorem exec_sload_of_ge (dst : Reg) :
    exec (.sload dst hd off) s = .next (s.setRun (.faulted (.segmentOutOfBounds (s.reg hd) (s.reg off)))) :=
  exec_of_effect (.sloadFault dst hd off _ (Memory.read_of_ge hg ho))

theorem exec_sstore_of_ge (v : Reg) :
    exec (.sstore hd off v) s = .next (s.setRun (.faulted (.segmentOutOfBounds (s.reg hd) (s.reg off)))) :=
  exec_of_effect (.sstoreFault hd off v _ (Memory.read_of_ge hg ho))

end

/-- Settles O35, by what the read of the addressed word answers; a load that completes ends as an ALU result does. -/
theorem sloadReadsTheAddressedWordOrFaults : Obligations.SloadReadsTheAddressedWordOrFaults := by
  intro dst handle offset s
  refine ⟨fun g hg ho => ?_, fun hu => ?_, fun g hg ho => ?_⟩
  · exact exec_of_aluResult (.sload dst handle offset _ (Memory.read_of_lt hg ho))
  · exact exec_sload_of_unmapped hu dst offset
  · exact exec_sload_of_ge hg ho dst

/-- Another address is another handle or another offset, so a write does not change what is read there (R45). -/
theorem Memory.read_of_ne_written {m m' : Memory} {h o v : Word} (hw : Memory.write m h o v = .ok m') {h' o' : Word}
    (hne : (h', o') ≠ (h, o)) : Memory.read m' h' o' = Memory.read m h' o' := by
  rw [Memory.read_after_write hw, if_neg fun ⟨hh, ho⟩ => hne (Prod.ext hh ho)]

/-- Settles O36: a store completes exactly where its write does, and the write changes one word of one segment. -/
theorem sstoreChangesExactlyTheAddressedWordOrFaults : Obligations.SstoreChangesExactlyTheAddressedWordOrFaults := by
  intro handle offset value s
  refine ⟨fun g hg ho => ?_, fun hu => ?_, fun g hg ho => ?_⟩
  · have hw := Memory.write_of_lt (s.reg value) hg ho
    exact ⟨_, exec_of_effect (.sstore handle offset value _ hw), Memory.read_written hw,
      fun h o hne => Memory.read_of_ne_written hw hne, Memory.lengthAt_after_write hw, rfl, setSegs_frame s _⟩
  · exact exec_sstore_of_unmapped hu offset value
  · exact exec_sstore_of_ge hg ho value

/-! ## MAP and UNMAP -/

/-- Settles O37: both checks of `Alloc` pass, and the policy's contract makes the handle picked a fresh one. -/
theorem mapCreatesZeroFilledSegment : Obligations.MapCreatesZeroFilledSegment := by
  intro dst len s hs hcap hfree
  have hfit := (State.fits_iff s _).mpr hcap
  have hleft := (Memory.handleLeft_iff hs.memory).mpr hfree
  obtain ⟨nonzero, fresh⟩ := Alloc.pick_contract hs.memory hs.alloc hleft
  have created (h' : Word) := Memory.seg?_set s.segs (s.alloc.pick s.segs).1 h' (Segment.zeros (s.reg len).toNat)
  have new := (created _).trans (if_pos rfl)
  exact ⟨_, _, exec_of_effect (.map dst len _ _ (State.allocSegment_eq hfit hleft)), nonzero, fresh,
    State.setReg_reg_self _ dst _, Memory.lengthAt_of_seg? new, fun o ho => Memory.read_of_lt new ho,
    fun h' hne => (created h').trans (if_neg hne), setSegs_setAlloc_setReg_frame s _ _ dst _⟩

/-- Settles O39: the two clauses are the two answers of `Free`. -/
theorem unmapDestroysTheSegmentOrFaults : Obligations.UnmapDestroysTheSegmentOrFaults := by
  intro handle s
  constructor
  · intro h0 hm
    have erased := Memory.seg?_erase s.segs (s.reg handle)
    exact ⟨_, exec_of_effect (.unmap handle _ (State.freeSegment_eq h0 hm)), (erased _).trans (if_pos rfl),
      fun h hne => (erased h).trans (if_neg hne), setSegs_setAlloc_frame s _ _⟩
  · intro hbad
    exact exec_of_effect (.unmapFault handle _ (State.freeSegment_of_bad hbad))

/-! ## LOADP -/

/-- A LOADP whose copy fits the capacity copies and jumps (R125). -/
theorem exec_loadp_of_fit {s : State} {hd : Reg} {g : Segment} (h0 : s.reg hd ≠ 0#32)
    (hg : Memory.seg? s.segs (s.reg hd) = some g)
    (hf : s.fits (Memory.used s.segs - Memory.len0 s.segs + g.len) = true) (target : Reg) :
    exec (.loadp hd target) s = .next ((s.setSegs (assocSet 0 g s.segs)).setPc (s.reg target)) :=
  exec_of_effect (.loadp hd target _ (State.replaceProgram_of_fit h0 hg hf))

/-- A LOADP from handle 0 copies nothing (R125). -/
theorem exec_loadp_of_zero {s : State} {hd : Reg} (h0 : s.reg hd = 0#32) (hm : Memory.mapped s.segs 0#32 = true)
    (target : Reg) : exec (.loadp hd target) s = .next (s.setPc (s.reg target)) :=
  exec_of_effect (.loadp hd target s (h0 ▸ State.replaceProgram_of_zero hm))

/-- A LOADP whose copy exceeds the capacity faults (R179). -/
theorem exec_loadp_of_unfit {s : State} {hd : Reg} {g : Segment} (h0 : s.reg hd ≠ 0#32)
    (hg : Memory.seg? s.segs (s.reg hd) = some g)
    (hf : s.fits (Memory.used s.segs - Memory.len0 s.segs + g.len) = false) (target : Reg) :
    exec (.loadp hd target) s = .next (s.setRun (.faulted .resourceExhausted)) :=
  exec_of_effect (.loadpFault hd target _ (State.replaceProgram_of_unfit h0 hg hf))

/-- Settles O40: one clause per answer of the program replacement. -/
theorem loadpReplacesTheProgramAndJumps : Obligations.LoadpReplacesTheProgramAndJumps := by
  intro handle target s
  refine ⟨fun g h0 hg hcap => ?_, fun h0 hm => ?_, fun hu => ?_, fun g cap h0 hg hcap hlt => ?_⟩
  · have copied (h : Word) := Memory.seg?_set_zero s.segs h g
    exact ⟨_, exec_loadp_of_fit h0 hg ((State.fits_iff s _).mpr hcap) target, rfl, (copied _).trans (if_pos rfl),
      fun h hne => (copied h).trans (if_neg hne), rfl, rfl, fun _ _ => rfl, ⟨rfl, rfl⟩, rfl, rfl, rfl⟩
  · exact exec_loadp_of_zero h0 hm target
  · exact exec_loadp_of_unmapped ((Memory.mapped_eq_false_iff _ _).mp hu) target
  · exact exec_loadp_of_unfit h0 hg ((State.fits_eq_false_iff s _).mpr ⟨cap, hcap, hlt⟩) target

end Sys2Proof.Machine
end

/-! # Console instructions

The byte that OUT emits and the word that IN delivers, as numbers; what each of the two keeps is said once, and each
statement is one clause per way its instruction ends. -/

section
namespace Sys2Proof.Machine

/-! ## The byte emitted and the word delivered -/

/-- A value that OUT accepts is not truncated (R143). -/
theorem emittedByte_toNat {v : Word} (hv : v.toNat ≤ 255) : (v.setWidth 8).toNat = v.toNat := by
  rw [BitVec.toNat_setWidth]
  exact Nat.mod_eq_of_lt (Nat.lt_succ_of_le hv)

/-- The word of a byte token is the byte zero-extended (R141). -/
theorem Token.word_byte_toNat (b : Byte) : (Token.byte b).word.toNat = b.toNat :=
  BitVec.toNat_setWidth_of_le (by decide)

/-! ## IN -/

/-- An IN that finds a token ends as an ALU result does, after the token is consumed (R144). -/
theorem exec_inp_of_token {s : State} {k : Token} (hk : s.nextToken = some k) (dst : Reg) :
    ∃ t, exec (.inp dst) s = .next t ∧ t.reg dst = k.word ∧ t.inPos = s.inPos + 1 ∧ t.out = s.out ∧
      regsKept [dst] s t ∧ memoryKept s t ∧ parametersKept s t ∧ advanced s t := by
  obtain ⟨regs, memory, ⟨inPos, out⟩, parameters, adv⟩ := aluResult_frame dst k.word s.consumeToken
  exact ⟨_, exec_of_effect (.inp dst k hk), aluResult_reg_self dst k.word s.consumeToken, inPos, out, regs, memory,
    parameters, adv⟩

/-- An IN that finds no token holds (R141). -/
theorem exec_inp_of_exhausted {s : State} (h : s.input.length ≤ s.inPos) (dst : Reg) : exec (.inp dst) s = .next s :=
  exec_of_effect (.inpHold dst ((State.nextToken_eq_none_iff s).mpr h))

/-- With every earlier token consumed, the next token is the one the environment supplies (R141). -/
theorem State.nextToken_supplyToken {s : State} (h : s.inPos = s.input.length) (k : Token) :
    (s.supplyToken k).nextToken = some k := by
  rw [State.nextToken, State.supplyToken_input, State.supplyToken_inPos, h]
  exact List.getElem?_concat_length

/-! ## The statements -/

/-- Settles O41: the two clauses are the two answers of the check of the value. -/
theorem outEmitsTheByteOrFaults : Obligations.OutEmitsTheByteOrFaults := by
  intro value s
  constructor
  · intro hle
    exact ⟨_, _, exec_of_effect (.out value hle), rfl, emittedByte_toNat hle, rfl, fun _ _ => rfl,
      memoryKept_of_eq rfl rfl, ⟨rfl, rfl, rfl⟩, advanced_advance (s.emit _)⟩
  · intro hlt
    exact exec_of_effect (.outFault value hlt)

/-- Settles O42: the two clauses are whether token number `in_pos` has been supplied. -/
theorem inDeliversTheNextTokenOrHolds : Obligations.InDeliversTheNextTokenOrHolds := by
  intro dst s
  refine ⟨fun k hk => ?_, fun hend => exec_inp_of_exhausted hend dst⟩
  obtain ⟨t, ht, hword, frame⟩ := exec_inp_of_token hk dst
  refine ⟨t, ht, ?_, ?_, frame⟩
  · rintro b rfl
    rw [hword, Token.word_byte_toNat]
  · rintro rfl
    exact hword

/-- Settles O43: before the supply IN finds no token, after it the supplied one. -/
theorem suppliedTokenEndsTheHold : Obligations.SuppliedTokenEndsTheHold := by
  intro dst s k hpos
  obtain ⟨t, ht, hword, hnext, -, -, -, ⟨hinput, -, -⟩, adv⟩ :=
    exec_inp_of_token (State.nextToken_supplyToken hpos k) dst
  exact ⟨exec_inp_of_exhausted hpos.ge dst, t, ht, hword, hnext, hinput, adv⟩

/-- Settles O25: of the ways an execution ends, one OUT emits and one IN consumes a token. -/
theorem consoleMovesOnlyByInAndOut : Obligations.ConsoleMovesOnlyByInAndOut := by
  intro i s t h
  cases exec_effect h with
  | sloadFault | sstoreFault | divFault | mapFault | unmapFault | outFault | loadpFault =>
    exact ⟨.inl rfl, .inl rfl⟩
  | cmovKeep | cmovMove | sload | sstore | add | mul | div | nand | halt | inpHold | loadv =>
    exact ⟨.inl rfl, .inl rfl⟩
  | map b c p u hu =>
    obtain ⟨-, -, -, rfl⟩ := State.allocSegment_ok hu
    exact ⟨.inl rfl, .inl rfl⟩
  | unmap c u hu =>
    obtain ⟨-, -, rfl⟩ := State.freeSegment_ok hu
    exact ⟨.inl rfl, .inl rfl⟩
  | loadp b c u hu =>
    obtain ⟨m, rfl⟩ := State.replaceProgram_frame hu
    exact ⟨.inl rfl, .inl rfl⟩
  | out c hle => exact ⟨.inr ⟨c, _, rfl, (emittedByte_toNat hle).symm, rfl⟩, .inl rfl⟩
  | inp c k hk => exact ⟨.inl rfl, .inr ⟨c, rfl, State.inPos_lt_of_nextToken hk, rfl⟩⟩

end Sys2Proof.Machine
end

/-! # The engine

The three ways a step leaves the fetch and the decoder: the fault of either, or the instruction to execute; and HALT. -/

section
namespace Sys2Proof.Machine

/-! ## The faults of fetch and decode -/

/-- Past the end of segment 0 nothing is fetched (R151). -/
theorem State.fetch_of_ge {s : State} {n : Nat} (hn : Memory.lengthAt s.segs 0#32 = some n) (hge : n ≤ s.pc.toNat) :
    s.fetch = .error (.fetchOutOfBounds s.pc) := by
  obtain ⟨g, hg, rfl⟩ := Option.map_eq_some_iff.mp hn
  simp [State.fetch, hg, hge]

theorem State.fetchDecode_of_fetch_error {s : State} {c : Cause} (hf : s.fetch = .error c) :
    s.fetchDecode = .error c := by
  simp [State.fetchDecode, hf]

theorem State.fetchDecode_of_reject {s : State} {w v : Word} (hf : s.fetch = .ok w)
    (hd : decodeWith s.opmap w = .error (.invalidOpcode v)) : s.fetchDecode = .error (.invalidOpcode v) := by
  simp [State.fetchDecode, hf, hd]

/-! ## The statements -/

/-- Settles O11: the word read is the word fetched, so the instruction it decodes to is the one executed. -/
theorem stepRunsTheDecodedInstruction : Obligations.StepRunsTheDecodedInstruction := by
  intro s w i hr hread hd _
  have fetched : s.fetch = .ok w := (State.fetch_ok_iff s w).mpr hread
  exact step_of_fetchDecode_ok hr (State.fetchDecode_of_decode fetched hd)

/-- Settles O12: the fetch's fault stands before the decoder, and an admissible map has no row for opcodes 14 and 15. -/
theorem fetchAndDecodeFaultsInOrder : Obligations.FetchAndDecodeFaultsInOrder := by
  constructor
  · intro s n hr hn hge
    have past_end := State.fetch_of_ge hn hge
    exact step_of_fetchDecode_error hr (State.fetchDecode_of_fetch_error past_end)
  · intro s w hr hm hread hop
    have fetched : s.fetch = .ok w := (State.fetch_ok_iff s w).mpr hread
    obtain ⟨-, illegal, -⟩ := everyWordIsAnInstructionOrIllegal s.opmap hm w
    exact step_of_fetchDecode_error hr (State.fetchDecode_of_reject fetched (illegal hop))

/-- Settles O44: HALT has no check and no advance, and its one effect is on the run state. -/
theorem haltChangesOnlyTheRunState : Obligations.HaltChangesOnlyTheRunState := by
  intro s
  exact ⟨s.setRun .halted, exec_of_effect .halt, rfl, rfl, fun _ _ => rfl, memoryKept_of_eq rfl rfl, ⟨rfl, rfl⟩,
    ⟨rfl, rfl, rfl⟩⟩

end Sys2Proof.Machine
end

/-! # Exceptions

When an execution ends in a fault: which check has failed, with which cause, and that nothing but the run state has
changed; and that a machine which is no longer running stays as it is. -/

section
namespace Sys2Proof.Machine

/-! ## The check that fails -/

/-- The check of an instruction fails with the cause `k` (R170); seven of the fourteen have one. -/
def State.failsCheck (s : State) (k : Cause) : Instr → Prop
  | .sload _ hd off => Memory.read s.segs (s.reg hd) (s.reg off) = .error k
  | .sstore hd off _ => Memory.read s.segs (s.reg hd) (s.reg off) = .error k
  | .div _ x y => quotient (s.reg x) (s.reg y) = .error k
  | .map _ len => s.allocSegment (s.reg len) = .error k
  | .unmap c => s.freeSegment (s.reg c) = .error k
  | .out c => outputByte (s.reg c) = .error k
  | .loadp hd _ => s.replaceProgram (s.reg hd) = .error k
  | _ => False

/-- An execution that ends in a fault has failed its check and has recorded the cause, no more (R10, R176). -/
theorem Effect.fault {i : Instr} {s t : State} {k : Cause} (e : Effect s i t) (hr : s.run = .running)
    (hk : t.run = .faulted k) : s.failsCheck k i ∧ t = s.setRun (.faulted k) := by
  have still_running (hrun : t.run = s.run) : False := nomatch hr.symm.trans (hrun.symm.trans hk)
  cases e with
  | sloadFault _ _ _ _ failed | sstoreFault _ _ _ _ failed | mapFault _ _ _ failed | unmapFault _ _ failed
  | loadpFault _ _ _ failed =>
    obtain rfl := RunState.faulted.inj hk
    exact ⟨failed, rfl⟩
  | divFault _ _ _ zero =>
    obtain rfl := RunState.faulted.inj hk
    exact ⟨if_pos zero, rfl⟩
  | outFault _ large =>
    obtain rfl := RunState.faulted.inj hk
    exact ⟨if_pos large, rfl⟩
  | halt => exact nomatch hk
  | cmovKeep | cmovMove | sload | sstore | add | mul | div | nand | out | inpHold | inp | loadv =>
    exact (still_running rfl).elim
  | map _ _ _ _ hu =>
    obtain ⟨-, -, -, rfl⟩ := State.allocSegment_ok hu
    exact (still_running rfl).elim
  | unmap _ _ hu =>
    obtain ⟨-, -, rfl⟩ := State.freeSegment_ok hu
    exact (still_running rfl).elim
  | loadp _ _ _ hu =>
    obtain ⟨m, rfl⟩ := State.replaceProgram_frame hu
    exact (still_running rfl).elim

/-! ## The statements -/

/-- Settles O16: the causes an instruction can raise are those of its check. -/
theorem faultsComeOnlyFromTheirCauses : Obligations.FaultsComeOnlyFromTheirCauses := by
  intro i s t k hr h hk
  obtain ⟨failed, -⟩ := (exec_effect h).fault hr hk
  cases i with
  | cmov | add | mul | nand | halt | inp | loadv => exact failed.elim
  | sload dst hd off =>
    rcases Memory.read_error failed with ⟨hnone, rfl⟩ | ⟨g, hg, hle, rfl⟩
    · exact ⟨(Memory.mapped_eq_false_iff _ _).mpr hnone, .inl ⟨dst, hd, off, rfl, rfl⟩⟩
    · exact ⟨⟨g.len, Memory.lengthAt_of_seg? hg, hle⟩, .inl ⟨dst, hd, off, rfl, rfl, rfl⟩⟩
  | sstore hd off v =>
    rcases Memory.read_error failed with ⟨hnone, rfl⟩ | ⟨g, hg, hle, rfl⟩
    · exact ⟨(Memory.mapped_eq_false_iff _ _).mpr hnone, .inr (.inl ⟨hd, off, v, rfl, rfl⟩)⟩
    · exact ⟨⟨g.len, Memory.lengthAt_of_seg? hg, hle⟩, .inr ⟨hd, off, v, rfl, rfl, rfl⟩⟩
  | div dst x y =>
    obtain ⟨zero, rfl⟩ := quotient_error failed
    exact ⟨dst, x, y, rfl, zero⟩
  | map dst len =>
    obtain ⟨rfl, unfit | noHandle⟩ := State.allocSegment_error failed
    · exact .inl ⟨dst, len, rfl, .inl ((State.fits_eq_false_iff s _).mp unfit)⟩
    · exact .inl ⟨dst, len, rfl, .inr fun _ => Memory.mapped_of_noHandleLeft noHandle⟩
  | unmap c =>
    obtain ⟨rfl, bad⟩ := State.freeSegment_error failed
    exact ⟨bad, c, rfl, rfl⟩
  | out c =>
    obtain ⟨large, rfl⟩ := outputByte_error failed
    exact ⟨large, c, rfl, rfl⟩
  | loadp hd target =>
    rcases State.replaceProgram_error failed with ⟨hnone, rfl⟩ | ⟨g, hg, h0, rfl, unfit⟩
    · exact ⟨(Memory.mapped_eq_false_iff _ _).mpr hnone, .inr (.inr ⟨hd, target, rfl, rfl⟩)⟩
    · obtain ⟨cap, hcap, exceeded⟩ := (State.fits_eq_false_iff s _).mp unfit
      exact .inr ⟨hd, target, g, cap, rfl, h0, hg, hcap, exceeded⟩

/-- Settles O15: fetch and decode record causes of their own, and of an execution's causes O16 rules `LoadFault` out. -/
theorem faultChangesOnlyTheRunState : Obligations.FaultChangesOnlyTheRunState := by
  intro s t c h hc
  obtain ⟨hr, ⟨rfl, -⟩ | ⟨_, v, -, -, rfl⟩ | ⟨_, i, -, -, he⟩⟩ := step_next h
  · obtain rfl := RunState.faulted.inj hc
    exact ⟨faultedWith_setRun _ s, Cause.noConfusion⟩
  · obtain rfl := RunState.faulted.inj hc
    exact ⟨faultedWith_setRun _ s, Cause.noConfusion⟩
  · obtain ⟨-, rfl⟩ := (exec_effect he).fault hr hc
    refine ⟨faultedWith_setRun c s, ?_⟩
    rintro rfl
    exact faultsComeOnlyFromTheirCauses i s _ .loadFault hr he rfl

/-- Settles O14, by induction on the run: no step leaves a state that is not running, so only tokens are added. -/
theorem terminalRunStatesAreFinal : Obligations.TerminalRunStatesAreFinal := by
  intro s t hr reached
  induction reached with
  | refl => exact ⟨[], by rw [List.append_nil]⟩
  | step _ h ih =>
    obtain ⟨ks, rfl⟩ := ih
    exact absurd (step_next h).1 hr
  | supply k _ ih =>
    obtain ⟨ks, rfl⟩ := ih
    exact ⟨ks ++ [k], by rw [← List.append_assoc]; rfl⟩

end Sys2Proof.Machine
end

/-! # Reset

The words of an image's byte stream and their number; which images reset refuses; and the state it leaves otherwise. -/

section
namespace Sys2Proof

/-! ## The image as bytes -/

/-- Four bytes make a number below 2^32, so the word is that number itself (R42). -/
theorem wordOfBytes_toNat (b0 b1 b2 b3 : Byte) :
    (wordOfBytes b0 b1 b2 b3).toNat = b0.toNat * 2 ^ 24 + b1.toNat * 2 ^ 16 + b2.toNat * 2 ^ 8 + b3.toNat := by
  unfold wordOfBytes
  have := b0.isLt
  have := b1.isLt
  have := b2.isLt
  have := b3.isLt
  rw [BitVec.toNat_ofNat, Nat.mod_eq_of_lt (by omega)]

theorem imageOfBytes_cons_eq_some_iff (b0 b1 b2 b3 : Byte) (rest : List Byte) (ws : List Word) :
    imageOfBytes (b0 :: b1 :: b2 :: b3 :: rest) = some ws ↔
      ∃ ws', imageOfBytes rest = some ws' ∧ wordOfBytes b0 b1 b2 b3 :: ws' = ws := by
  rw [imageOfBytes]
  cases imageOfBytes rest <;> simp

/-- What a stream that is an image begins with: the bytes of its first word, or nothing (R203). -/
theorem imageOfBytes_some_cases {bytes : List Byte} {ws : List Word} (h : imageOfBytes bytes = some ws) :
    (bytes = [] ∧ ws = []) ∨ ∃ b0 b1 b2 b3 rest ws', bytes = b0 :: b1 :: b2 :: b3 :: rest ∧
      imageOfBytes rest = some ws' ∧ wordOfBytes b0 b1 b2 b3 :: ws' = ws :=
  match bytes with
  | [] => .inl ⟨rfl, (Option.some.inj h).symm⟩
  | b0 :: b1 :: b2 :: b3 :: rest =>
    let ⟨ws', hrest, hws⟩ := (imageOfBytes_cons_eq_some_iff b0 b1 b2 b3 rest ws).mp h
    .inr ⟨b0, b1, b2, b3, rest, ws', rfl, hrest, hws⟩

/-- A stream that is an image has four bytes for each of its words (R203). -/
theorem imageOfBytes_length {bytes : List Byte} {ws : List Word} (h : imageOfBytes bytes = some ws) :
    4 * ws.length = bytes.length := by
  induction ws generalizing bytes with
  | nil =>
    obtain ⟨rfl, -⟩ | ⟨_, _, _, _, _, _, -, -, ⟨⟩⟩ := imageOfBytes_some_cases h
    rfl
  | cons w ws ih =>
    obtain ⟨-, ⟨⟩⟩ | ⟨_, _, _, _, rest, _, rfl, hrest, ⟨⟩⟩ := imageOfBytes_some_cases h
    have := ih hrest
    simp only [List.length_cons]
    omega

/-- Word i of an image is made of the bytes 4i to 4i + 3 of its stream (R203). -/
theorem imageOfBytes_getD {bytes : List Byte} {ws : List Word} (h : imageOfBytes bytes = some ws) {i : Nat}
    (hi : i < ws.length) :
    ws.getD i 0#32 = wordOfBytes (bytes.getD (4 * i) 0#8) (bytes.getD (4 * i + 1) 0#8) (bytes.getD (4 * i + 2) 0#8)
      (bytes.getD (4 * i + 3) 0#8) := by
  induction ws generalizing bytes i with
  | nil => exact absurd hi (Nat.not_lt_zero i)
  | cons w ws ih =>
    obtain ⟨-, ⟨⟩⟩ | ⟨_, _, _, _, rest, _, rfl, hrest, ⟨⟩⟩ := imageOfBytes_some_cases h
    cases i with
    | zero => rfl
    | succ i => exact ih hrest (Nat.lt_of_succ_lt_succ hi)

/-- Whole words are all that is asked of a stream (R203). -/
theorem imageOfBytes_of_wholeWords :
    ∀ {bytes : List Byte}, bytes.length % 4 = 0 → ∃ ws, imageOfBytes bytes = some ws
  | [], _ => ⟨[], rfl⟩
  | b0 :: b1 :: b2 :: b3 :: rest, h =>
    let ⟨ws, hrest⟩ := imageOfBytes_of_wholeWords (bytes := rest) ((Nat.add_mod_right rest.length 4).symm.trans h)
    ⟨_, (imageOfBytes_cons_eq_some_iff b0 b1 b2 b3 rest _).mpr ⟨ws, hrest, rfl⟩⟩

/-- A ragged stream is no image: an image's stream has four bytes for each word (R204). -/
theorem imageOfBytes_of_ragged {bytes : List Byte} (h : bytes.length % 4 ≠ 0) : imageOfBytes bytes = none := by
  refine Option.eq_none_iff_forall_ne_some.mpr fun ws hws => h ?_
  rw [← imageOfBytes_length hws]
  exact Nat.mul_mod_right 4 ws.length

end Sys2Proof

namespace Sys2Proof.Machine

/-- Settles O6: the stream is read four bytes at a time, and the words read account for all of it. -/
theorem imageBytesAreBigEndianWords : Obligations.ImageBytesAreBigEndianWords := by
  refine fun bytes => ⟨fun whole => ?_, imageOfBytes_of_ragged⟩
  obtain ⟨ws, hws⟩ := imageOfBytes_of_wholeWords whole
  refine ⟨ws, hws, imageOfBytes_length hws, fun i hi => ?_⟩
  rw [imageOfBytes_getD hws hi, wordOfBytes_toNat]

/-! ## Images that reset refuses, and the state it leaves otherwise -/

/-- Reset refuses an image longer than a segment can be, or than the capacity (R202, R204). -/
theorem bootWords_of_tooLong {image : List Word} {capacity : Option Nat}
    (h : Config.maxSegmentWords < image.length ∨ ∃ cap, capacity = some cap ∧ cap < image.length) (opmap : OpMap)
    (input : List Token) (reference : Bool) :
    bootWords image opmap input capacity reference = .fault (.faulted .loadFault) := by
  refine if_pos (h.imp (fun long => ?_) (State.fits_eq_false_iff _ _).mpr)
  exact decide_eq_false (Nat.not_le_of_lt long)

/-- The checks of `bootWords_next` are the only ones (R202). -/
theorem bootWords_of_accepted {image : List Word} {capacity : Option Nat}
    (hlength : image.length ≤ Config.maxSegmentWords) (hcap : ∀ cap, capacity = some cap → image.length ≤ cap)
    (opmap : OpMap) (input : List Token) (reference : Bool) :
    bootWords image opmap input capacity reference =
      .next (State.resetWith image opmap input capacity (Alloc.initial reference)) := by
  refine if_neg (not_or.mpr ⟨?_, ?_⟩)
  · exact ne_false_of_eq_true (decide_eq_true hlength)
  · exact ne_false_of_eq_true ((State.fits_iff _ _).mpr hcap)

theorem boot_of_ragged {bytes : List Byte} (h : bytes.length % 4 ≠ 0) (opmap : OpMap) (input : List Token)
    (capacity : Option Nat) (reference : Bool) :
    boot (some bytes) opmap input capacity reference = .fault (.faulted .loadFault) := by
  simp only [boot, imageOfBytes_of_ragged h]

theorem boot_of_image {bytes : List Byte} {image : List Word} (h : imageOfBytes bytes = some image) (opmap : OpMap)
    (input : List Token) (capacity : Option Nat) (reference : Bool) :
    boot (some bytes) opmap input capacity reference = bootWords image opmap input capacity reference := by
  simp only [boot, h]

/-- Settles O7: the bounds on the number of bytes are four times the bounds on the number of words. -/
theorem resetRefusesExactlyTheBadImages : Obligations.ResetRefusesExactlyTheBadImages := by
  refine fun opmap input capacity reference => ⟨rfl, fun bytes => ⟨fun bad => ?_, fun whole short hcap => ?_⟩⟩
  · by_cases whole : bytes.length % 4 = 0
    · obtain ⟨image, himage⟩ := imageOfBytes_of_wholeWords whole
      have hlength := imageOfBytes_length himage
      rw [boot_of_image himage]
      refine bootWords_of_tooLong ?_ opmap input reference
      obtain ragged | long | ⟨cap, rfl, exceeded⟩ := bad
      · exact absurd whole ragged
      · exact .inl (by unfold Config.maxSegmentWords; omega)
      · exact .inr ⟨cap, rfl, by omega⟩
    · exact boot_of_ragged whole opmap input capacity reference
  · obtain ⟨image, himage⟩ := imageOfBytes_of_wholeWords whole
    have hlength := imageOfBytes_length himage
    rw [boot_of_image himage]
    refine ⟨_, bootWords_of_accepted ?_ (fun cap h => ?_) opmap input reference⟩
    · unfold Config.maxSegmentWords
      omega
    · have := hcap cap h
      omega

theorem State.reset_reg (r : Reg) : State.reset.reg r = 0#32 := Vector.getElem_replicate r.isLt

theorem State.resetWith_segs (image : List Word) (opmap : OpMap) (input : List Token) (capacity : Option Nat)
    (al : Alloc) : (State.resetWith image opmap input capacity al).segs = [(0, Segment.ofWords image)] := rfl

theorem Alloc.initial_isReference (reference : Bool) : (Alloc.initial reference).isReference = reference := by
  cases reference <;> rfl

/-- A placed image is read as it stands (R202). -/
theorem Memory.read_ofWords {image : List Word} {o : Word} (ho : o.toNat < image.length) :
    Memory.read [(0, Segment.ofWords image)] 0#32 o = .ok (image.getD o.toNat 0#32) := by
  rw [Memory.read_of_lt (g := Segment.ofWords image) rfl ho, Segment.ofWords_read]

/-- Settles O8: the state is `State.reset` with the image placed and the parameters set, and the first fetch is the read
of the image's word 0. -/
theorem resetStateIsTheTableOfInitialValues : Obligations.ResetStateIsTheTableOfInitialValues := by
  intro image opmap input capacity reference s h
  obtain ⟨-, -, rfl⟩ := bootWords_next h
  refine ⟨State.reset_reg, rfl, rfl, fun h => ?_, Memory.lengthAt_of_seg? (g := Segment.ofWords image) rfl,
    fun o => Memory.read_ofWords, rfl, fun href => href ▸ rfl, (Alloc.initial_isReference reference).trans,
    rfl, rfl, rfl, rfl, rfl, fun nonempty => ?_⟩
  · rw [State.resetWith_segs, Memory.mapped_singleton_zero, decide_eq_true_iff]
  · exact (State.fetch_ok_iff _ _).mpr (Memory.read_ofWords (o := 0#32) nonempty)

end Sys2Proof.Machine
end
